-- ==== Sys2Proof/Word.lean ====
section
/-! DEFINITION. The widths of the block's words (spec/00_scope.md R6, R8; spec/30_encoding.md R38, R43) and the
3-byte frame of the wire. -/

namespace Sys2Proof

/-- BYTE_W = 8 (R6). -/
abbrev Byte := BitVec 8

/-- A 3-byte frame read as one 24-bit word, `F[23:16]` = byte0 (R8, formats CMD24 and RSP24 of R38). -/
abbrev FrameWord := BitVec 24

/-- The packed host request word HREQ36: op at bits 35..32, arg at bits 31..0 (R43). -/
abbrev RequestWord := BitVec 36

/-- SAMPLE_W = 12, unsigned (R6). -/
abbrev Sample := BitVec 12

/-- The 3-bit channel field of a Command Frame (R39, R41). -/
abbrev ChannelField := BitVec 3

/-- A frame as the bytes `[byte0, byte1, byte2]`, byte0 first on the wire (R8, R27). -/
structure Frame where
  byte0 : Byte
  byte1 : Byte
  byte2 : Byte
  deriving DecidableEq, Repr, Inhabited

end Sys2Proof
end

