-- ==== Sys2Proof/Config.lean ====
section
/-! DEFINITION. What is fixed for the machine: the parameters the source settles (spec/00_scope.md R6), what the model's
fixed machine takes for the open parameters of R7, the answers of the four Transport calls (spec/10_state.md R22), and the
FREE values: constants with no body, one for each thing the outside world decides and the run has not listed
(log 2, 7, 8).

"A model takes each as an argument" (R7): from here on, a type T that mentions a handle, a transport error or the operand
width is T.Of with the argument H, E or chW for it, and every operation over it takes them too; T alone is T.Of at the
fixed machine's arguments, Handle, TErr and Config.chW. Machine/Parameters.lean has the machine at any arguments. -/

namespace Sys2Proof

/-- The type the model's fixed machine takes for the parameter `Handle` (R7, D21): a token the block only stores and
passes back. DESIGN CHOICE: numbered tokens (log 3). -/
structure Handle where
  id : Nat
  deriving DecidableEq, Repr, Inhabited

/-- The type the model's fixed machine takes for the parameter `TErr` (R7, D21): a transport error the block only passes
on. DESIGN CHOICE: numbered tokens (log 3). -/
structure TErr where
  id : Nat
  deriving DecidableEq, Repr, Inhabited

/-- The bit order argument of TConfigure (R22). The block only ever passes `msbFirst` (R17).
PRESUMED: the other order, which no rule names, is the alternative a Transport could be given (log 16). -/
inductive BitOrder where
  | msbFirst
  | lsbFirst
  deriving DecidableEq, Repr, Inhabited

/-- What `TOpen(bus, device)` answers (R22). -/
inductive OpenAnswer.Of (H E : Type) where
  | ok (h : H)
  | err (e : E)
  deriving DecidableEq, Repr, Inhabited

/-- `OpenAnswer.Of` of the fixed machine. -/
abbrev OpenAnswer := OpenAnswer.Of Handle TErr

/-- What `TConfigure(h, speed_hz, mode, bit_order)` answers (R22, D13). -/
inductive ConfigureAnswer.Of (E : Type) where
  | ok
  | err (e : E)
  deriving DecidableEq, Repr, Inhabited

/-- `ConfigureAnswer.Of` of the fixed machine. -/
abbrev ConfigureAnswer := ConfigureAnswer.Of TErr

/-- What `Transfer(h, out)` answers (R22). `ok` carries the reply bytes as the Transport gives them: a conforming
Transport gives exactly 3, and R30 and R88 say what the block makes of another number. -/
inductive TransferAnswer.Of (E : Type) where
  | ok (bytes : List Byte)
  | err (e : E)
  deriving DecidableEq, Repr, Inhabited

/-- `TransferAnswer.Of` of the fixed machine. -/
abbrev TransferAnswer := TransferAnswer.Of TErr

namespace Config

/-- NUM_CHANNELS (R6). -/
def numChannels : Nat := 8

/-- CH_W, the width of READ's channel operand, in the model's fixed machine (R7, D4): the spec's default (log 4). -/
abbrev chW : Nat := 32

/-- The hardwired SPI mode (R6, R16, R17). -/
def spiMode : Nat := 0

/-- The hardwired bit order (R6, R16, R17). -/
def bitOrder : BitOrder := .msbFirst

/-- FREE VALUE: the n-th unlisted draw, for a TOpen on this bus and device (R22, D22; log 2). -/
opaque freeOpen {H E : Type} [Inhabited H] [Inhabited E] (n bus device : Nat) : OpenAnswer.Of H E

/-- FREE VALUE: the n-th unlisted draw, for a TConfigure of this handle at this speed (R22, D22; log 2). -/
opaque freeConfigure {H E : Type} [Inhabited E] (n : Nat) (h : H) (speedHz : Nat) : ConfigureAnswer.Of E

/-- FREE VALUE: the n-th unlisted draw, for the Transfer in flight of this frame; `none` when the Transport has not
answered by this step (R22, R71, D22; log 2). -/
opaque freeTransfer {H E : Type} [Inhabited E] (n : Nat) (h : Option H) (tx : Option FrameWord) :
  Option (TransferAnswer.Of E)

/-- FREE VALUE: the n-th unlisted draw, for the choice among several presented requests (ARB, R7, R36; log 7). -/
opaque freeChoice (n presented : Nat) : Nat

/-- FREE VALUE: the cause reported for an `ok` answer that is not 3 bytes long; the spec states that the result is
TransferFailed and names no cause (R30, R88; DESIGN CHOICE, log 8). -/
opaque wrongLengthCause {E : Type} [Inhabited E] (bytes : List Byte) : E

end Config

end Sys2Proof
end

