-- ==== Sys2Proof/Syntax.lean ====
section
/-! DEFINITION. The host request as it stands on the request port (spec/10_state.md R23) and the instructions: one
constructor for each row of spec/opcode_table.json. -/

namespace Sys2Proof

/-- The configuration side-band of OPEN, `{bus, device, speed_hz}` (R23, R76); also what CFG latches (R16).
Natural numbers, passed unchecked (R7, D20; log 5). -/
structure OpenConfig where
  bus : Nat
  device : Nat
  speedHz : Nat
  deriving DecidableEq, Repr, Inhabited

/-- A host request: the packed word of `{op, arg}`, HREQ36 where CH_W is 32, and the side-band `cfg` (R23, R43). -/
structure Request.Of (chW : Nat) where
  word : BitVec (chW + 4)
  cfg : OpenConfig
  deriving DecidableEq, Repr, Inhabited

/-- `Request.Of` of the fixed machine. -/
abbrev Request := Request.Of Config.chW

/-- The opcode table. -/
inductive Instr where
  /-- OPEN (R76): the side-band configuration; the `arg` field is ignored. -/
  | openReq (cfg : OpenConfig)
  /-- READ (R64): the channel operand, a signed integer (R43, R51). -/
  | read (ch : Int)
  /-- CLOSE (R79): the `arg` field is ignored. -/
  | close
  /-- MCP3208_SE_READ (R57): the wire command, with its channel field. -/
  | mcp3208SeRead (c : ChannelField)
  deriving DecidableEq, Repr

end Sys2Proof
end

