-- ==== Sys2Proof/WellFormed.lean ====
section
/-! DEFINITION. Which instructions can be written as words: the one operand check of the syntax
(spec/30_encoding.md R43, R49). -/

namespace Sys2Proof

/-- The operand fits an n-bit two's complement field: "A READ operand outside the CH_W-bit signed range cannot be
written" (R49), at any CH_W (R7, D4). -/
def operandFitsAt (n : Nat) (ch : Int) : Bool := decide (-(2 ^ (n - 1)) ≤ ch) && decide (ch < 2 ^ (n - 1))

/-- Instructions that are well formed at a CH_W of n. Bus, device and speed are unchecked (D20); a channel field is 3 bits
by its type. A READ operand outside {0..7} is well formed: it is a legal encoding with an error result (R46). -/
def Instr.wfAt (n : Nat) : Instr → Bool
  | .openReq _ => true
  | .read ch => operandFitsAt n ch
  | .close => true
  | .mcp3208SeRead _ => true

/-- At the machine's CH_W. -/
def Instr.wf (i : Instr) : Bool := i.wfAt Config.chW

end Sys2Proof
end

