-- ==== Sys2Proof/Decode.lean ====
section
/-! DEFINITION. Decoding a host request word and a command frame, total and rejecting by name, and the encoder, both
written from the format tables (spec/30_encoding.md R39, R43, R44, R45). -/

namespace Sys2Proof

/-- Why a word is no instruction. -/
inductive DecodeError where
  /-- `op` is 0x0 or 0x4 to 0xF (R44, R83). -/
  | reservedRequest (op : BitVec 4)
  /-- A 24-bit word that is none of the 8 command frames (R48, R54). -/
  | notACommandFrame (word : FrameWord)
  deriving DecidableEq, Repr

/-- An instruction as it stands in the hardware: a host request (HREQ36 with its side-band) or a command frame in
flight (CMD24) (R38). -/
inductive Encoded.Of (chW : Nat) where
  | hreq36 (r : Request.Of chW)
  | cmd24 (f : FrameWord)
  deriving DecidableEq, Repr

/-- `Encoded.Of` of the fixed machine. -/
abbrev Encoded := Encoded.Of Config.chW

/-- The `op` field at a CH_W of n: bits n+3..n (R43). -/
def requestOpAt (n : Nat) (w : BitVec (n + 4)) : BitVec 4 := w.extractLsb' n 4

/-- The `arg` field at a CH_W of n: bits n-1..0 (R43). -/
def requestArgAt (n : Nat) (w : BitVec (n + 4)) : BitVec n := w.extractLsb' 0 n

/-- The request codes (R44) by `op` alone (R45); READ's operand is `sint_CH_W(arg)` (R43, R64). -/
def decodeRequestAt (n : Nat) (w : BitVec (n + 4)) (cfg : OpenConfig) : Except DecodeError Instr :=
  match (requestOpAt n w).toNat with
  | 1 => .ok (.openReq cfg)
  | 2 => .ok (.read (requestArgAt n w).toInt)
  | 3 => .ok .close
  | _ => .error (.reservedRequest (requestOpAt n w))

/-- HREQ36 field `op`, bits 35..32 (R43). -/
def requestOp (w : RequestWord) : BitVec 4 := requestOpAt Config.chW w

/-- HREQ36 field `arg`, bits 31..0 (R43). -/
def requestArg (w : RequestWord) : BitVec 32 := requestArgAt Config.chW w

/-- A host request, at its port's CH_W. -/
def decodeRequest {n : Nat} (r : Request.Of n) : Except DecodeError Instr := decodeRequestAt n r.word r.cfg

/-- The fixed bits of CMD24, five zeros, START, SGL/DIFF, the don't-care bits and the dummy byte (R39, R57). -/
def commandMask : FrameWord := 0xFE3FFF#24

/-- Their values (R57). -/
def commandMatch : FrameWord := 0x060000#24

/-- CMD24 (R39): the fixed bits as the table has them, then the channel field at bits 16..14. -/
def decodeCommand (f : FrameWord) : Except DecodeError Instr :=
  if f &&& commandMask = commandMatch then .ok (.mcp3208SeRead (f.extractLsb' 14 3))
  else .error (.notACommandFrame f)

/-- The decoder at a CH_W of n. -/
def decodeAt {n : Nat} : Encoded.Of n → Except DecodeError Instr
  | .hreq36 r => decodeRequest r
  | .cmd24 f => decodeCommand f

/-- At the machine's CH_W. -/
def decode (e : Encoded) : Except DecodeError Instr := decodeAt e

/-- A request word from its fields at a CH_W of n: `{op, arg}` (R43). -/
def requestWordAt (n : Nat) (op : BitVec 4) (arg : BitVec n) : BitVec (n + 4) :=
  (op ++ arg).cast (Nat.add_comm 4 n)

/-- An HREQ36 word from its fields (R43). -/
def requestWord (op : BitVec 4) (arg : BitVec 32) : RequestWord := requestWordAt Config.chW op arg

/-- A CMD24 word from its fields, most significant first: leading zeros, START, SGL/DIFF, D2 D1 D0, don't-care bits,
dummy byte (R39). -/
def commandWord (c : ChannelField) : FrameWord := 0#5 ++ 1#1 ++ 1#1 ++ c ++ 0#6 ++ 0#8

/-- The side-band where nothing drives it: READ and CLOSE do not use it (R23). -/
def noConfig : OpenConfig := ⟨0, 0, 0⟩

/-- The words of an instruction at a CH_W of n; OPEN and CLOSE are written with `arg` 0 (R49, D26). -/
def encodeAt (n : Nat) : Instr → Encoded.Of n
  | .openReq cfg => .hreq36 ⟨requestWordAt n 1#4 0#n, cfg⟩
  | .read ch => .hreq36 ⟨requestWordAt n 2#4 (BitVec.ofInt n ch), noConfig⟩
  | .close => .hreq36 ⟨requestWordAt n 3#4 0#n, noConfig⟩
  | .mcp3208SeRead c => .cmd24 (commandWord c)

/-- At the machine's CH_W. -/
def encode (i : Instr) : Encoded := encodeAt Config.chW i

/-- The word the table's numbering gives: 24 bits are a CMD24 row, more are an HREQ36 row, whose 36 bits fill five
whole bytes with bits 39..36 zero; the side-band is no bits of the table and so zero (log 18). -/
def encodedOfTableWord (nbits w : Nat) : Option Encoded :=
  if nbits = 24 then
    if w < 2 ^ 24 then some (.cmd24 (BitVec.ofNat 24 w)) else none
  else if nbits = 36 ∨ nbits = 40 then
    if w < 2 ^ 36 then some (.hreq36 ⟨BitVec.ofNat 36 w, noConfig⟩) else none
  else none

/-- The instruction the decoder reads from a row's bits. -/
def decodeTableWord (nbits w : Nat) : Option Instr :=
  match encodedOfTableWord nbits w with
  | none => none
  | some e => (decode e).toOption

end Sys2Proof
end

