-- ==== Sys2Proof/Machine/State.lean ====
section
/-! DEFINITION. State as plain data: the block's own record (spec/10_state.md R13), its ports, and the agents outside
it that the step must hear from (R22, R23). No memory: the block has none (spec/20_memory.md R26; log 14). -/

namespace Sys2Proof.Machine

/-- LIFE (R14). -/
inductive Life where
  | closed
  | opened
  deriving DecidableEq, Repr

/-- PHASE (R18). -/
inductive Phase where
  | idle
  | busy
  deriving DecidableEq, Repr

/-- "The complete state of the block" (R13). -/
structure Block.Of (H : Type) where
  /-- LIFE (R14). -/
  life : Life
  /-- HANDLE (R15). -/
  handle : Option H
  /-- CFG's stored fields (R16); `mode` and `bit_order` are constants (R17). -/
  cfg : Option OpenConfig
  /-- PHASE (R18). -/
  phase : Phase
  /-- TX, the command frame in flight (R19). -/
  tx : Option FrameWord
  deriving DecidableEq, Repr

/-- `Block.Of` of the fixed machine. -/
abbrev Block := Block.Of Handle

/-- The error taxonomy (R11, R84): "No other error exists". -/
inductive Error.Of (E : Type) where
  | channelOutOfRange
  | transportUnavailable
  | transferFailed (cause : E)
  deriving DecidableEq, Repr

/-- `Error.Of` of the fixed machine. -/
abbrev Error := Error.Of TErr

/-- The payload of an `ok` result (R11): a Sample for READ, none for OPEN and CLOSE. -/
inductive Payload where
  | none
  | sample (s : Sample)
  deriving DecidableEq, Repr

/-- The result of a host request (R11, R24): an `err` carries no Sample. -/
inductive Result.Of (E : Type) where
  | ok (p : Payload)
  | err (e : Error.Of E)
  deriving DecidableEq, Repr

/-- `Result.Of` of the fixed machine. -/
abbrev Result := Result.Of TErr

/-- A host agent (R23, R36, R74): the requests it still has to make, in order, the first of them presented on the
request port; whether its accepted request still has no result; the results it has received, newest first (log 13, 21). -/
structure Requester.Of (E : Type) (chW : Nat) where
  pending : List (Request.Of chW)
  waiting : Bool
  results : List (Result.Of E)
  deriving DecidableEq, Repr

/-- `Requester.Of` of the fixed machine. -/
abbrev Requester := Requester.Of TErr Config.chW

/-- MODEL's own: what the outside world decides next, in order of use: the Transport's answers (R22, D22; a Transfer's
`none` is a step in which it has not answered yet, R71) and the arbitration choices (R36). When a list is exhausted
the free values of Config stand in, indexed by `count` (log 2, log 7). -/
structure Draws.Of (H E : Type) where
  tOpen : List (OpenAnswer.Of H E)
  tConfigure : List (ConfigureAnswer.Of E)
  transfer : List (Option (TransferAnswer.Of E))
  choice : List Nat
  count : Nat
  deriving DecidableEq, Repr

/-- `Draws.Of` of the fixed machine. -/
abbrev Draws := Draws.Of Handle TErr

/-- MODEL's own: what an observer outside the block can see (log 1). -/
inductive Event.Of (H E : Type) (chW : Nat) where
  /-- A request is taken from the request port (R23). -/
  | accepted (r : Request.Of chW)
  /-- `TOpen(bus, device)` and its answer (R22). -/
  | tOpen (bus device : Nat) (answer : OpenAnswer.Of H E)
  /-- `TConfigure(h, speed_hz, mode, bit_order)` and its answer (R22). -/
  | tConfigure (h : H) (speedHz mode : Nat) (order : BitOrder) (answer : ConfigureAnswer.Of E)
  /-- `Transfer(h, out)` is called (R22, R68). -/
  | transfer (h : H) (out : Frame)
  /-- The Transfer in flight is answered (R69, R70). -/
  | answered (answer : TransferAnswer.Of E)
  /-- `TClose(h)` (R22). -/
  | tClose (h : H)
  /-- A result on the response port (R24). -/
  | respond (r : Result.Of E)
  deriving DecidableEq, Repr

/-- `Event.Of` of the fixed machine. -/
abbrev Event := Event.Of Handle TErr Config.chW

/-- The whole machine, over R7's type of handles, type of transport errors and operand width. -/
structure State.Of (H E : Type) (chW : Nat) where
  /-- The block (R13). -/
  block : Block.Of H
  /-- The host response port: the result the last step delivered, if it delivered one (R24; log 19). -/
  response : Option (Result.Of E)
  /-- The reset input (R99; log 12). The outside world drives it: no step asserts it (log 24). -/
  resetAsserted : Bool
  /-- The request port with the agents that present requests on it (R23, R36). -/
  requesters : List (Requester.Of E chW)
  /-- MODEL's own: what the outside world answers (log 2). -/
  draws : Draws.Of H E
  /-- MODEL's own: what has been observed outside, newest first; no step reads it (log 1). -/
  trace : List (Event.Of H E chW)
  deriving DecidableEq, Repr

/-- `State.Of` of the fixed machine. -/
abbrev State := State.Of Handle TErr Config.chW

/-- Why the machine faults. The block has no traps (R86): these two are raised only in states that break the spec's own
invariants, which no run reaches (log 10); both are safe. -/
inductive Fault where
  /-- LIFE is Open and HANDLE is none, against R15; raised by READ and CLOSE where they need the handle. Safe. -/
  | openWithoutHandle
  /-- PHASE is Busy and TX holds no command frame, against R19 and R48; raised by the step. Safe. -/
  | busyWithoutFrame
  deriving DecidableEq, Repr

/-- Why the machine refuses. A refusal is the spec's "marks the whole state refused, for good". -/
inductive Refusal where
  /-- An instruction with no meaning yet; no arm answers it. Safe. -/
  | notModelled (mnemonic : String)
  /-- OPEN on an Open block (R78, D9); raised by OPEN. Safe. -/
  | openWhileOpen
  /-- A request whose `op` is reserved (R83, D25); raised by the step. Safe. -/
  | reservedRequest (op : BitVec 4)
  /-- A reset asserted while Open or Busy (R99, D16); raised by the step. Safe. -/
  | warmReset
  deriving DecidableEq, Repr

/-- The block after power-on reset (R25). -/
def Block.reset {H : Type} : Block.Of H :=
  { life := .closed, handle := none, cfg := none, phase := .idle, tx := none }

/-- No listed answer and nothing drawn: DESIGN CHOICE (log 6). -/
def Draws.reset {H E : Type} : Draws.Of H E :=
  { tOpen := [], tConfigure := [], transfer := [], choice := [], count := 0 }

/-- The machine after power-on reset (R25, R99): the block's values and the empty response port are the spec's; that no
requester, no listed answer and no observation stands is the model's (log 6). -/
def State.resetAt (H E : Type) (n : Nat) : State.Of H E n :=
  { block := Block.reset
    response := none
    resetAsserted := false
    requesters := []
    draws := Draws.reset
    trace := [] }

/-- The fixed machine after reset. -/
def State.reset : State := State.resetAt Handle TErr Config.chW

end Sys2Proof.Machine
end

