-- ==== Sys2Proof/Machine/Operands.lean ====
section
/-! DEFINITION. The operand forms and pure functions of the block: channel validity and the command encoder
(spec/40_command_encoder.md), the response decoder (spec/41_response_decoder.md), frames as words and as bits on the
wire (spec/20_memory.md R27 to R29). -/

namespace Sys2Proof.Machine

/-- `valid(ch)` (R51): the mandated check, on the integer itself, never on its low bits (90_conflicts.md C1). -/
def valid (ch : Int) : Bool := decide (0 ≤ ch) && decide (ch ≤ 7)

/-- `ch[2:0]` of a channel (R41). -/
def channelField (ch : Int) : ChannelField := BitVec.ofInt 3 ch

/-- `ENC(ch)`, the three byte formulas (R52). -/
def enc (c : ChannelField) : Frame :=
  let ch : Byte := c.zeroExtend 8
  { byte0 := 0b00000110#8 ||| ((ch &&& 0b100#8) >>> 2)
    byte1 := (ch &&& 0b011#8) <<< 6
    byte2 := 0x00#8 }

/-- The word view of a frame (R8): byte0 at bits 23..16. -/
def frameWord (f : Frame) : FrameWord := f.byte0 ++ f.byte1 ++ f.byte2

/-- The bytes of a word view, `[f[23:16], f[15:8], f[7:0]]` (R8, R68). -/
def frameOfWord (w : FrameWord) : Frame :=
  { byte0 := w.extractLsb' 16 8, byte1 := w.extractLsb' 8 8, byte2 := w.extractLsb' 0 8 }

/-- `CHAN([b0, b1, b2])` (R54): a specification function; the block never applies it. -/
def chan (f : Frame) : ChannelField :=
  (((f.byte0 &&& 0b1#8) <<< 2) ||| (f.byte1 >>> 6)).truncate 3

/-- `IsCommandFrame(F)` (R54). -/
def isCommandFrame (w : FrameWord) : Bool := (w &&& 0xFE3FFF#24) == 0x060000#24

/-- `DEC([b0, b1, b2])` (R59). -/
def dec (r : Frame) : Sample :=
  (((r.byte1 &&& 0x0F#8).zeroExtend 12) <<< 8) ||| r.byte2.zeroExtend 12

/-- The Response Frame of an `ok` answer: exactly 3 bytes, or none (R30). -/
def responseFrame : List Byte → Option Frame
  | [b0, b1, b2] => some ⟨b0, b1, b2⟩
  | _ => none

/-- The result a Transport answer gives (R69, R70, R63); an `ok` of another length than 3 bytes is a TransferFailed whose
cause the spec does not state (R30, R88; log 8). -/
def answerResult {E : Type} [Inhabited E] : TransferAnswer.Of E → Result.Of E
  | .ok bytes =>
    match responseFrame bytes with
    | some r => .ok (.sample (dec r))
    | none => .err (.transferFailed (Config.wrongLengthCause bytes))
  | .err e => .err (.transferFailed e)

/-- The bits of a byte in the order they cross the wire: bit 7 first (R28). -/
def byteBits (b : Byte) : List Bool :=
  [b.getLsbD 7, b.getLsbD 6, b.getLsbD 5, b.getLsbD 4, b.getLsbD 3, b.getLsbD 2, b.getLsbD 1, b.getLsbD 0]

/-- The bits of a frame in the order of the bit periods 0 to 23 (R27, R28, R75): byte0 first. -/
def wireBits (f : Frame) : List Bool := byteBits f.byte0 ++ byteBits f.byte1 ++ byteBits f.byte2

/-- One bit period of an exchange: the command bit out and the response bit in, in the same period (R29, R75). -/
def exchangeBits (command response : Frame) : List (Bool × Bool) := (wireBits command).zip (wireBits response)

/-- CFG's hardwired `mode` (R16, R17). -/
def cfgMode (_ : OpenConfig) : Nat := Config.spiMode

/-- CFG's hardwired `bit_order` (R16, R17). -/
def cfgBitOrder (_ : OpenConfig) : BitOrder := Config.bitOrder

end Sys2Proof.Machine
end

