-- ==== Sys2Proof/Machine/Flags.lean ====
section
/-! DEFINITION. The block has no flags (spec/10_state.md R21); what a result carries instead is its 2-bit status code
(spec/60_exceptions.md R84). -/

namespace Sys2Proof.Machine

/-- The code of an error (R84). -/
def errorCode {E : Type} : Error.Of E → BitVec 2
  | .channelOutOfRange => 1#2
  | .transportUnavailable => 2#2
  | .transferFailed _ => 3#2

/-- The status code of a result (R84). -/
def statusCode {E : Type} : Result.Of E → BitVec 2
  | .ok _ => 0#2
  | .err e => errorCode e

end Sys2Proof.Machine
end

