-- ==== Sys2Proof/Machine/Ops.lean ====
section
/-! DEFINITION. The named operations every meaning is built from: the draws of the outside world, the response port, the
four Transport calls, the register writes of the block, and the two places an instruction comes from: the request port
and the frame in flight. -/

namespace Sys2Proof.Machine

variable {H E : Type} {n : Nat}

/-! ### Draws (R22, R36, D22; log 2, log 7) -/

/-- The answer to the next TOpen: the next listed one, else a free value. -/
def Draws.Of.openAnswer [Inhabited H] [Inhabited E] (d : Draws.Of H E) (bus device : Nat) :
    OpenAnswer.Of H E × Draws.Of H E :=
  match d.tOpen with
  | a :: rest => (a, { d with tOpen := rest })
  | [] => (Config.freeOpen d.count bus device, { d with count := d.count + 1 })

/-- The answer to the next TConfigure. -/
def Draws.Of.configureAnswer [Inhabited E] (d : Draws.Of H E) (h : H) (speedHz : Nat) :
    ConfigureAnswer.Of E × Draws.Of H E :=
  match d.tConfigure with
  | a :: rest => (a, { d with tConfigure := rest })
  | [] => (Config.freeConfigure d.count h speedHz, { d with count := d.count + 1 })

/-- Whether and how the Transfer in flight is answered in this step; `none` is no answer yet (R71). -/
def Draws.Of.transferAnswer [Inhabited E] (d : Draws.Of H E) (h : Option H) (tx : Option FrameWord) :
    Option (TransferAnswer.Of E) × Draws.Of H E :=
  match d.transfer with
  | a :: rest => (a, { d with transfer := rest })
  | [] => (Config.freeTransfer d.count h tx, { d with count := d.count + 1 })

/-- The arbiter's choice among several presented requests (R36). -/
def Draws.Of.arbiterChoice (d : Draws.Of H E) (presented : Nat) : Nat × Draws.Of H E :=
  match d.choice with
  | k :: rest => (k, { d with choice := rest })
  | [] => (Config.freeChoice d.count presented, { d with count := d.count + 1 })

/-! ### The response port -/

/-- The agent that waits for the outstanding result receives it (R24; log 21). -/
def Requester.Of.receive (r : Result.Of E) (q : Requester.Of E n) : Requester.Of E n :=
  if q.waiting then { q with waiting := false, results := r :: q.results } else q

/-- `respond r` (R10, R24): the result is placed on the response port and completes the current request. -/
def respond (r : Result.Of E) (s : State.Of H E n) : State.Of H E n :=
  { s with
    response := some r
    requesters := s.requesters.map (Requester.Of.receive r)
    trace := .respond r :: s.trace }

/-- `raise E` (R10, R86), the one way an error is reported: it saves nothing, changes no mode and enters no handler. -/
def raise (e : Error.Of E) (s : State.Of H E n) : State.Of H E n := respond (.err e) s

/-- A result is an event, not held after the step that delivers it (R24, D18; log 19). -/
def clearResponse (s : State.Of H E n) : State.Of H E n := { s with response := none }

/-! ### The Transport calls of OPEN and CLOSE (R22) -/

/-- `TOpen(bus, device)`. -/
def callOpen [Inhabited H] [Inhabited E] (cfg : OpenConfig) (s : State.Of H E n) : OpenAnswer.Of H E × State.Of H E n :=
  let a := s.draws.openAnswer cfg.bus cfg.device
  (a.1, { s with draws := a.2, trace := .tOpen cfg.bus cfg.device a.1 :: s.trace })

/-- `TConfigure(h, speed_hz, 0, MSB_FIRST)`: mode and bit order are the hardwired ones (R17). -/
def callConfigure [Inhabited E] (h : H) (cfg : OpenConfig) (s : State.Of H E n) : ConfigureAnswer.Of E × State.Of H E n :=
  let a := s.draws.configureAnswer h cfg.speedHz
  (a.1, { s with
    draws := a.2
    trace := .tConfigure h cfg.speedHz (cfgMode cfg) (cfgBitOrder cfg) a.1 :: s.trace })

/-- `TClose(h)`, which cannot fail (D13). -/
def callClose (h : H) (s : State.Of H E n) : State.Of H E n := { s with trace := .tClose h :: s.trace }

/-! ### The block's registers -/

/-- OPEN's success: `LIFE <- Open; HANDLE <- some h; CFG <- some cfg` (R76). -/
def acquire (h : H) (cfg : OpenConfig) (s : State.Of H E n) : State.Of H E n :=
  { s with block := { s.block with life := .opened, handle := some h, cfg := some cfg } }

/-- CLOSE's release: `LIFE <- Closed; HANDLE <- none; CFG <- none` (R79). -/
def release (s : State.Of H E n) : State.Of H E n :=
  { s with block := { s.block with life := .closed, handle := none, cfg := none } }

/-- The issue of a Transfer (R68): `TX <- some f; PHASE <- Busy`, and exactly one call with the frame's three bytes. -/
def issueTransfer (h : H) (f : FrameWord) (s : State.Of H E n) : State.Of H E n :=
  { s with
    block := { s.block with tx := some f, phase := .busy }
    trace := .transfer h (frameOfWord f) :: s.trace }

/-- The end of a Transfer: `TX <- none; PHASE <- Idle` (R69, R70). -/
def endTransfer (a : TransferAnswer.Of E) (s : State.Of H E n) : State.Of H E n :=
  { s with
    block := { s.block with tx := none, phase := .idle }
    trace := .answered a :: s.trace }

/-! ### Shared steps of the meanings -/

/-- Acceptance (R65): a host request has its effect only in PHASE Idle; while Busy it is held, neither rejected nor
answered, and nothing changes (log 11). -/
def whenIdle (effect : State.Of H E n → Host.Outcome (State.Of H E n) Fault Refusal) (s : State.Of H E n) :
    Host.Outcome (State.Of H E n) Fault Refusal :=
  match s.block.phase with
  | .idle => effect s
  | .busy => .next s

/-- The issue step of a read (R64): the closed check (R66), the range check (R67), then the issue (R68). -/
def issueRead (ch : Int) (s : State.Of H E n) : Host.Outcome (State.Of H E n) Fault Refusal :=
  match s.block.life with
  | .closed => .next (raise .transportUnavailable s)
  | .opened =>
    if valid ch then
      match s.block.handle with
      | some h => .next (issueTransfer h (frameWord (enc (channelField ch))) s)
      | none => .fault .openWithoutHandle
    else .next (raise .channelOutOfRange s)

/-- The completion step of a read (R64): the Transport's answer, if it comes in this step, ends the Transfer and is the
result (R69, R70); without one the block stays Busy (R71). -/
def completeRead [Inhabited E] (s : State.Of H E n) : State.Of H E n :=
  let a := s.draws.transferAnswer s.block.handle s.block.tx
  match a.1 with
  | some answer => respond (answerResult answer) (endTransfer answer { s with draws := a.2 })
  | none => { s with draws := a.2 }

/-- OPEN on a Closed block (R76), with its two failure paths (R77). -/
def openTransport [Inhabited H] [Inhabited E] (cfg : OpenConfig) (s : State.Of H E n) : State.Of H E n :=
  let o := callOpen cfg s
  match o.1 with
  | .err _ => raise .transportUnavailable o.2
  | .ok h =>
    let c := callConfigure h cfg o.2
    match c.1 with
    | .err _ => raise .transportUnavailable (callClose h c.2)
    | .ok => respond (.ok .none) (acquire h cfg c.2)

/-- CLOSE (R79, R80). -/
def closeTransport (s : State.Of H E n) : Host.Outcome (State.Of H E n) Fault Refusal :=
  match s.block.life with
  | .closed => .next (respond (.ok .none) s)
  | .opened =>
    match s.block.handle with
    | some h => .next (respond (.ok .none) (release (callClose h s)))
    | none => .fault .openWithoutHandle

/-! ### Where an instruction comes from -/

/-- An agent presents its next request unless it still waits for a result (R23, R74). -/
def Requester.Of.presents (q : Requester.Of E n) : Option (Request.Of n) :=
  if q.waiting then none else q.pending.head?

/-- The presented requests, each with its requester's place in the list. -/
def presentedRequests (qs : List (Requester.Of E n)) : List (Nat × Request.Of n) :=
  qs.zipIdx.filterMap fun q => q.1.presents.map fun r => (q.2, r)

/-- The arbiter (R36): nothing presented, one request, or any one of several. -/
def arbitrate (presented : List (Nat × Request.Of n)) (d : Draws.Of H E) :
    Option (Nat × Request.Of n) × Draws.Of H E :=
  match presented with
  | [] => (none, d)
  | [p] => (some p, d)
  | p :: ps =>
    let k := d.arbiterChoice (p :: ps).length
    ((p :: ps)[k.1 % (p :: ps).length]?, k.2)

/-- The chosen agent's request leaves the port and its result is awaited (R23). -/
def Requester.Of.accepted (q : Requester.Of E n) : Requester.Of E n :=
  { q with pending := q.pending.tail, waiting := true }

/-- Acceptance of a request (R23): the port in PHASE Idle; `none` when nobody presents one (R100; log 22). -/
def acceptRequest (s : State.Of H E n) : Option (Request.Of n × State.Of H E n) :=
  match arbitrate (presentedRequests s.requesters) s.draws with
  | (none, _) => none
  | (some (k, r), d) =>
    some (r, { s with
      draws := d
      requesters := s.requesters.modify k Requester.Of.accepted
      trace := .accepted r :: s.trace })

/-- How the machine stops on a word that is no instruction: a reserved request is refused (R45, R83); a frame in flight
that is no command frame is a state against R48 (log 10). -/
def stopOn : DecodeError → Host.Outcome (Option Instr × State.Of H E n) Fault Refusal
  | .reservedRequest op => .refused (.reservedRequest op)
  | .notACommandFrame _ => .fault .busyWithoutFrame

/-- What the next step runs, and in which state. In PHASE Idle the request the port accepts (R65), nothing when none is
presented (R100; log 22). In PHASE Busy the wire command in flight, the frame in TX (R19, R57; log 9). -/
def fetch (s : State.Of H E n) : Host.Outcome (Option Instr × State.Of H E n) Fault Refusal :=
  match s.block.phase with
  | .idle =>
    match acceptRequest s with
    | none => .next (none, s)
    | some (r, s') =>
      match decodeRequest r with
      | .ok i => .next (some i, s')
      | .error e => stopOn e
  | .busy =>
    match s.block.tx with
    | none => .fault .busyWithoutFrame
    | some f =>
      match decodeCommand f with
      | .ok i => .next (some i, s)
      | .error e => stopOn e

/-- The reset input (R99): asserted while Open or Busy it is refused; otherwise it is the power-on reset (log 12). -/
def takeReset (s : State.Of H E n) : Host.Outcome (State.Of H E n) Fault Refusal :=
  if s.block.life = .opened ∨ s.block.phase = .busy then .refused .warmReset
  else .next { s with block := Block.reset, response := none, resetAsserted := false }

/-- One step of a machine that runs its instructions by `run`: the reset input, else what the fetch gives (R64, R65). -/
def stepWith (run : Instr → State.Of H E n → Host.Outcome (State.Of H E n) Fault Refusal) (s : State.Of H E n) :
    Host.Outcome (State.Of H E n) Fault Refusal :=
  if s.resetAsserted then takeReset s
  else
    match fetch (clearResponse s) with
    | .next (some i, s') => run i s'
    | .next (none, s') => .next s'
    | .fault f => .fault f
    | .refused r => .refused r

/-! ### Placing an instruction where the next step fetches it (log 13, 18, 23) -/

/-- A host request: the only request presented, to an Idle block without a reset. -/
def placeRequest (r : Request.Of n) (s : State.Of H E n) : State.Of H E n :=
  { s with
    block := { s.block with phase := .idle, tx := none }
    resetAsserted := false
    requesters := [{ pending := [r], waiting := false, results := [] }] }

/-- A command frame: in TX, with the block Busy and no reset. -/
def placeCommand (f : FrameWord) (s : State.Of H E n) : State.Of H E n :=
  { s with block := { s.block with phase := .busy, tx := some f }, resetAsserted := false }

end Sys2Proof.Machine
end

