-- ==== Sys2Proof/Machine/Lifecycle.lean ====
section
/-! DEFINITION. The meanings of the lifecycle requests OPEN and CLOSE (spec/43_lifecycle.md). -/

namespace Sys2Proof.Machine

variable {H E : Type} {n : Nat}

/-- OPEN (R76, R77); on an Open block it is refused (R78). -/
def execOpenReq [Inhabited H] [Inhabited E] (cfg : OpenConfig) (s : State.Of H E n) :
    Host.Outcome (State.Of H E n) Fault Refusal :=
  whenIdle (fun s =>
    match s.block.life with
    | .opened => .refused .openWhileOpen
    | .closed => .next (openTransport cfg s)) s

/-- CLOSE (R79, R80). -/
def execClose (s : State.Of H E n) : Host.Outcome (State.Of H E n) Fault Refusal := whenIdle closeTransport s

end Sys2Proof.Machine
end

