-- ==== Sys2Proof/Machine/Sequencer.lean ====
section
/-! DEFINITION. The meanings of the frame sequencer's instructions: the host request READ
(spec/42_frame_sequencer.md) and the wire command MCP3208_SE_READ (spec/40_command_encoder.md R57). -/

namespace Sys2Proof.Machine

variable {H E : Type} {n : Nat}

/-- READ (R64): its issue step; the completion step is the wire command's. -/
def execRead (ch : Int) (s : State.Of H E n) : Host.Outcome (State.Of H E n) Fault Refusal := whenIdle (issueRead ch) s

/-- MCP3208_SE_READ (R57). While Busy it is the exchange in flight and its end: the Transport's answer completes the
read (R69, R70, R71). While Idle it is the emission, which only "the issuing READ" makes (R57, R68): the read of its
channel, under the same closed check (log 9). -/
def execMcp3208SeRead [Inhabited E] (c : ChannelField) (s : State.Of H E n) :
    Host.Outcome (State.Of H E n) Fault Refusal :=
  match s.block.phase with
  | .busy => .next (completeRead s)
  | .idle => issueRead c.toNat s

end Sys2Proof.Machine
end

