-- ==== Sys2Proof/Machine/Dispatch.lean ====
section
/-! DEFINITION. One arm for each constructor of Instr. -/

namespace Sys2Proof.Machine

def exec (i : Instr) (s : State) : Host.Outcome State Fault Refusal :=
  match i with
  | .openReq cfg => Sys2Proof.Machine.execOpenReq cfg s
  | .read ch => Sys2Proof.Machine.execRead ch s
  | .close => Sys2Proof.Machine.execClose s
  | .mcp3208SeRead c => Sys2Proof.Machine.execMcp3208SeRead c s

end Sys2Proof.Machine
end

