-- ==== Sys2Proof/Machine/Step.lean ====
section
/-! DEFINITION. One step of the machine: the reset input (spec/70_reset_and_hazards.md R99), else the request accepted in
PHASE Idle or the exchange in flight in PHASE Busy (spec/42_frame_sequencer.md R64, R65). -/

namespace Sys2Proof.Machine

/-- DESIGN CHOICE: no step asserts the reset input. When it may become asserted the spec does not say; the input is the
outside world's, and a run begun with it low meets no reset (log 24). -/
def step (s : State) : Host.Outcome State Fault Refusal := stepWith exec s

/-- The table word where the next step fetches it: a CMD24 word in TX, a host request word on the port (log 18, 23). -/
def State.withFetchWord (s : State) (nbits w : Nat) : State :=
  if nbits = 24 then placeCommand (BitVec.ofNat 24 w) s
  else placeRequest { word := BitVec.ofNat 36 w, cfg := noConfig } s

end Sys2Proof.Machine
end

