-- ==== Sys2Proof/Machine/Assembler.lean ====
section
/-! DEFINITION. The textual syntax of host requests (spec/30_encoding.md R49, R50): one request a line, `;` starts a
comment. -/

namespace Sys2Proof.Machine

/-- Why an assembler rejects a line. -/
inductive AsmError where
  /-- The line is none of the three forms of R49. -/
  | syntaxError
  /-- "A READ operand outside the CH_W-bit signed range cannot be written, and an assembler rejects it" (R49). -/
  | operandOutOfRange
  deriving DecidableEq, Repr

/-- The line up to its comment. -/
def uncomment (line : List Char) : List Char := line.takeWhile (· != ';')

/-- Splits a line into tokens: blanks separate, and `=` and `,` are tokens of their own (DESIGN CHOICE: the spec's own
programs fix no more than single examples of the spacing; log 20). -/
def tokens : List Char → List (List Char)
  | [] => []
  | c :: rest =>
    if c = ' ' ∨ c = '\t' then [] :: tokens rest
    else if c = '=' ∨ c = ',' then [] :: [c] :: [] :: tokens rest
    else match tokens rest with
      | [] => [[c]]
      | t :: ts => (c :: t) :: ts

/-- One decimal digit. -/
def digitValue (c : Char) : Option Nat := if c.isDigit then some (c.toNat - '0'.toNat) else none

/-- The digits after a first value, most significant first. -/
def digitsValue (v : Nat) : List Char → Option Nat
  | [] => some v
  | c :: rest => (digitValue c).bind fun d => digitsValue (v * 10 + d) rest

/-- `<nat>`: at least one decimal digit. -/
def parseNat : List Char → Option Nat
  | [] => none
  | c :: rest => digitsValue 0 (c :: rest)

/-- `<int>`: "a decimal integer and may be negative" (R49). -/
def parseInt : List Char → Option Int
  | '-' :: rest => (parseNat rest).map fun n => -(n : Int)
  | t => (parseNat t).map fun n => (n : Int)

/-- The configuration of an OPEN line, in the order R49 gives it. -/
def parseConfig : List (List Char) → Option OpenConfig
  | [['b', 'u', 's'], ['='], b, [','], ['d', 'e', 'v'], ['='], d, [','], ['s', 'p', 'e', 'e', 'd'], ['='], v] =>
    match parseNat b, parseNat d, parseNat v with
    | some b, some d, some v => some ⟨b, d, v⟩
    | _, _, _ => none
  | _ => none

/-- The request of a READ line, for a port of CH_W n. -/
def parseRead (operand : List Char) (n : Nat := Config.chW) : Except AsmError (Option Instr) :=
  match parseInt operand with
  | none => .error .syntaxError
  | some ch => if operandFitsAt n ch then .ok (some (.read ch)) else .error .operandOutOfRange

/-- A line's request; `none` for a line that holds none (R49). -/
def parseLine (line : List Char) (n : Nat := Config.chW) : Except AsmError (Option Instr) :=
  match (tokens (uncomment line)).filter (fun t => !t.isEmpty) with
  | [] => .ok none
  | ['O', 'P', 'E', 'N'] :: rest =>
    match parseConfig rest with
    | some cfg => .ok (some (.openReq cfg))
    | none => .error .syntaxError
  | [['R', 'E', 'A', 'D'], operand] => parseRead operand n
  | [['C', 'L', 'O', 'S', 'E']] => .ok (some .close)
  | _ => .error .syntaxError

/-- "Each textual request assembles to exactly one HREQ36 word" (R50), of n+4 bits at a CH_W of n, with the side-band of OPEN. -/
def assembleLine (line : List Char) (n : Nat := Config.chW) : Except AsmError (Option (Encoded.Of n)) :=
  match parseLine line n with
  | .ok i => .ok (i.map (encodeAt n))
  | .error e => .error e

end Sys2Proof.Machine
end

