-- ==== Sys2Proof/Machine/Parameters.lean ====
section
/-! DEFINITION. The machine with R7's open parameters as arguments (spec/00_scope.md): the types of handles and of transport
errors, and CH_W. Bus, Dev and Speed are natural numbers (D20), and ARB is any order, drawn at each acceptance (D8). The
fixed machine that the host's interface asks for, Sys2Proof.core, is this one at the arguments of Config (log 3, log 4). -/

namespace Sys2Proof.Machine

variable {H E : Type} [Inhabited H] [Inhabited E] {n : Nat}

/-- `exec`, arm for arm, at any parameters. -/
def execAt (i : Instr) (s : State.Of H E n) : Host.Outcome (State.Of H E n) Fault Refusal :=
  match i with
  | .openReq cfg => execOpenReq cfg s
  | .read ch => execRead ch s
  | .close => execClose s
  | .mcp3208SeRead c => execMcp3208SeRead c s

/-- `step` at any parameters. -/
def stepAt (s : State.Of H E n) : Host.Outcome (State.Of H E n) Fault Refusal := stepWith execAt s

/-- The machine at the parameters Handle, TErr and CH_W (R7). -/
def machineAt (Handle TErr : Type) [Inhabited Handle] [Inhabited TErr] (chW : Nat) : Host.Core :=
  { State := State.Of Handle TErr chW
    Fault := Fault
    Refusal := Refusal
    step := stepAt
    reset := State.resetAt Handle TErr chW }

end Sys2Proof.Machine
end

