-- ==== Sys2Proof/Safety.lean ====
section
/-! DEFINITION. What claims are stated in: the spec's invariants of the block's record, what a trace of the outside
world must look like (one exchange and one request at a time, every handle released, no transfer before
configuration), and the end of a run. A trace is read newest event first. -/

namespace Sys2Proof.Machine

variable {H E : Type} {n : Nat}

/-- The invariants of the block's record: a handle and a CFG exactly while Open (R15, R16), a frame in TX exactly while
Busy (R19), Busy only while Open (R64, R65), and in TX only frames the block emits (R48). -/
abbrev Block.Of.Wf (b : Block.Of H) : Prop :=
  (b.handle.isSome = true ↔ b.life = .opened) ∧
  (b.cfg.isSome = true ↔ b.life = .opened) ∧
  (b.tx.isSome = true ↔ b.phase = .busy) ∧
  (b.phase = .busy → b.life = .opened) ∧
  (b.tx.all isCommandFrame = true)

/-- Is a Transfer in flight after these events? `none` where two overlap or an answer comes without a call (R33). -/
def transferInFlight : List (Event.Of H E n) → Option Bool
  | [] => some false
  | .transfer _ _ :: older => if transferInFlight older = some false then some true else none
  | .answered _ :: older => if transferInFlight older = some true then some false else none
  | _ :: older => transferInFlight older

/-- Is an accepted request without its result after these events? `none` where a request is accepted while another is
outstanding, or a result comes without a request (R24, R90, R92). -/
def requestOutstanding : List (Event.Of H E n) → Option Bool
  | [] => some false
  | .accepted _ :: older => if requestOutstanding older = some false then some true else none
  | .respond _ :: older => if requestOutstanding older = some true then some false else none
  | _ :: older => requestOutstanding older

/-- One exchange and one request at a time, in step with PHASE (R24, R33). -/
abbrev State.Of.Serial (s : State.Of H E n) : Prop :=
  (s.block.phase = .idle →
    transferInFlight s.trace = some false ∧ requestOutstanding s.trace = some false) ∧
  (s.block.phase = .busy →
    transferInFlight s.trace = some true ∧ requestOutstanding s.trace = some true)

/-- How often TOpen has returned this handle. -/
def timesReturned [DecidableEq H] (h : H) : List (Event.Of H E n) → Nat
  | [] => 0
  | .tOpen _ _ (.ok h') :: older => (if h' = h then 1 else 0) + timesReturned h older
  | _ :: older => timesReturned h older

/-- How often this handle was passed to TClose. -/
def timesReleased [DecidableEq H] (h : H) : List (Event.Of H E n) → Nat
  | [] => 0
  | .tClose h' :: older => (if h' = h then 1 else 0) + timesReleased h older
  | _ :: older => timesReleased h older

/-- Whether HANDLE holds this handle, as a count. -/
def timesHeld [DecidableEq H] (h : H) (held : Option H) : Nat := if held = some h then 1 else 0

/-- Every handle TOpen returned is released, but for the one in HANDLE (R81). -/
abbrev State.Of.ReleaseLedger [DecidableEq H] (s : State.Of H E n) : Prop :=
  ∀ h, timesReleased h s.trace + timesHeld h s.block.handle = timesReturned h s.trace

/-- The speed a handle is configured for since TOpen last returned it, with mode 0 and MSB-first order and not released
since; `none` when it is not (R103). -/
def configuredSpeed [DecidableEq H] (h : H) : List (Event.Of H E n) → Option Nat
  | [] => none
  | .tConfigure h' speed mode order .ok :: older =>
    if h' = h then (if mode = 0 ∧ order = .msbFirst then some speed else none) else configuredSpeed h older
  | .tClose h' :: older => if h' = h then none else configuredSpeed h older
  | .tOpen _ _ (.ok h') :: older => if h' = h then none else configuredSpeed h older
  | _ :: older => configuredSpeed h older

/-- Every Transfer was made on a handle configured at that time, and sent a command frame (R48, R103). -/
def transfersProper [DecidableEq H] : List (Event.Of H E n) → Bool
  | [] => true
  | .transfer h f :: older =>
    (configuredSpeed h older).isSome && isCommandFrame (frameWord f) && transfersProper older
  | _ :: older => transfersProper older

/-- HANDLE is configured for CFG's speed, and every Transfer so far was proper (R103). -/
abbrev State.Of.ConfiguredLedger [DecidableEq H] (s : State.Of H E n) : Prop :=
  (∀ h cfg, s.block.handle = some h → s.block.cfg = some cfg →
    configuredSpeed h s.trace = some cfg.speedHz) ∧
  transfersProper s.trace = true

/-- The Transfers called so far, newest first (R33). -/
def transfersOf : List (Event.Of H E n) → List (H × Frame)
  | [] => []
  | .transfer h f :: older => (h, f) :: transfersOf older
  | _ :: older => transfersOf older

/-- An agent waits for a result exactly while the block is Busy, and then only one does (R65, R90). -/
abbrev State.Of.OneWaits (s : State.Of H E n) : Prop :=
  (s.block.phase = .idle → s.requesters.countP (fun q => q.waiting) = 0) ∧
  (s.block.phase = .busy → s.requesters.countP (fun q => q.waiting) = 1)

/-- n steps of the machine, stopping at the first fault or refusal. -/
def run (n : Nat) (s : State) : Host.Outcome State Fault Refusal := Sys2Proof.core.run n s

/-- The end of a run: every request accepted and answered, and PHASE Idle (R74). -/
abbrev State.Of.Ended (s : State.Of H E n) : Prop :=
  (∀ q ∈ s.requesters, q.pending = [] ∧ q.waiting = false) ∧ s.block.phase = .idle

/-- What the block and its agents can act on: all of the state but what has already gone out, the response port, the
results the agents have received, and the trace (R20, R24, R62). -/
def State.Of.live (s : State.Of H E n) : Block.Of H × Bool × List (List (Request.Of n) × Bool) × Draws.Of H E :=
  (s.block, s.resetAsserted, s.requesters.map (fun q => (q.pending, q.waiting)), s.draws)

end Sys2Proof.Machine
end

