-- ==== Sys2Proof/Certificates/Slice0/Obligations.lean ====
section
/-! DEFINITION. The statements for the provers. A next state is written out as a record over the state before, so that
each such statement is also the instruction's frame: what it does not name is unchanged. -/

open Sys2Proof Sys2Proof.Machine

/-! ### Encodings -/

/-- R39, R43, R44, R45, R49: decoding the words of a well-formed instruction gives the instruction back, with every
operand at every value the encoding admits. -/
def Obligations.DecodeInvertsEncode : Prop :=
  ∀ i : Instr, i.wf = true → decode (encode i) = .ok i

/-- R39, R43, R45: what the decoder reads is all the word holds, but for the bits R45 and R23 say take no part: `arg` of
OPEN and CLOSE (written as 0, D26) and the side-band of READ and CLOSE. -/
def Obligations.EncodeRestoresTheDecodedWord : Prop :=
  (∀ f i, decode (.cmd24 f) = .ok i → encode i = .cmd24 f) ∧
  (∀ r i, decode (.hreq36 r) = .ok i →
    ∃ r', encode i = .hreq36 r' ∧ requestOp r'.word = requestOp r.word ∧
      (requestOp r.word = 2#4 → r'.word = r.word) ∧
      (requestOp r.word ≠ 2#4 → requestArg r'.word = 0#32) ∧
      (requestOp r.word = 1#4 → r'.cfg = r.cfg))

/-- R43, R44, R45: every 36-bit word is its two fields, and decodes by `op` alone. -/
def Obligations.RequestDecodesByOpAlone : Prop :=
  (∀ w : RequestWord, w = requestWord (requestOp w) (requestArg w)) ∧
  ∀ (op : BitVec 4) (arg : BitVec 32) (cfg : OpenConfig),
    decodeRequest ⟨requestWord op arg, cfg⟩ =
      if op = 1#4 then .ok (.openReq cfg)
      else if op = 2#4 then .ok (.read arg.toInt)
      else if op = 3#4 then .ok .close
      else .error (.reservedRequest op)

/-- R7, R43, R64 (D4): at every operand width CH_W, the word's fields are where R43 puts them, a READ operand of the signed
CH_W-bit range is read back as that integer, and the machine of that CH_W, with any types of handles and of transport
errors, steps on such a word as the READ of that integer; the fixed machine is that machine at the model's own
parameters (log 3, log 4). -/
def Obligations.RequestFieldsAtEveryOperandWidth : Prop :=
  ∀ n : Nat, 0 < n →
    (∀ (op : BitVec 4) (arg : BitVec n),
      requestOpAt n (requestWordAt n op arg) = op ∧ requestArgAt n (requestWordAt n op arg) = arg) ∧
    (∀ (ch : Int) (cfg : OpenConfig), operandFitsAt n ch = true →
      decodeRequestAt n (requestWordAt n 2#4 (BitVec.ofInt n ch)) cfg = .ok (.read ch)) ∧
    (∀ (H E : Type) [Inhabited H] [Inhabited E] (ch : Int) (cfg : OpenConfig) (rest : List (Request.Of n))
        (results : List (Result.Of E)) (s : State.Of H E n),
      operandFitsAt n ch = true → s.resetAsserted = false → s.block.phase = .idle →
      s.requesters = [⟨⟨requestWordAt n 2#4 (BitVec.ofInt n ch), cfg⟩ :: rest, false, results⟩] →
      stepAt s = execRead ch { s with
        response := none
        requesters := [⟨rest, true, results⟩]
        trace := .accepted ⟨requestWordAt n 2#4 (BitVec.ofInt n ch), cfg⟩ :: s.trace }) ∧
    ∀ s : State, step s = stepAt s

/-- Words written out from the tables of R39, R43, R44 and from 95_test_vectors.md decode to what they stand for. That a
row is read through decodeTableWord, an HREQ36 word in 40 bits with its top four zero, and that the side-band, which is no
bits of the word, is all zero there (V-L1 drives it), are the model's choice (log 18). -/
def Obligations.SpecWordsDecode : Prop :=
  decodeTableWord 40 0x100000000 = some (.openReq ⟨0, 0, 0⟩) ∧
  decodeTableWord 40 0x200000007 = some (.read 7) ∧
  decodeTableWord 40 0x2FFFFFFFF = some (.read (-1)) ∧
  decodeTableWord 40 0x300000005 = some .close ∧
  decodeTableWord 24 0x06C000 = some (.mcp3208SeRead 3#3) ∧
  decodeTableWord 24 0x074000 = some (.mcp3208SeRead 5#3) ∧
  decodeTableWord 40 0x000000000 = none ∧
  decodeTableWord 40 0xF00000000 = none ∧
  decodeTableWord 24 0x064100 = none ∧
  decodeTableWord 24 0x04C000 = none

/-- R49, R50: a request an assembler accepts is a well-formed host request, and its one HREQ36 word decodes back to it. -/
def Obligations.AssembledLinesDecodeBack : Prop :=
  ∀ (line : List Char) (e : Encoded), assembleLine line = .ok (some e) →
    ∃ i r, parseLine line = .ok (some i) ∧ i.wf = true ∧ e = .hreq36 r ∧ decode e = .ok i

/-- R49: a READ operand in the text is the decimal integer it spells, negative ones included. -/
def Obligations.DecimalOperandsReadBack : Prop :=
  ∀ n : Nat, parseNat (Nat.toDigits 10 n) = some n ∧
    parseInt (Nat.toDigits 10 n) = some (n : Int) ∧
    parseInt ('-' :: Nat.toDigits 10 n) = some (-(n : Int))

/-! ### Command encoder -/

/-- R51: the check on the integer itself; a valid channel is its own 3-bit field, so nothing wraps (R41, C1). -/
def Obligations.ChannelValidity : Prop :=
  ∀ ch : Int, (valid ch = true ↔ ¬ (ch < 0 ∨ ch > 7)) ∧
    (valid ch = true → ((channelField ch).toNat : Int) = ch)

/-- R46: with CH_W = 32 the operand is valid exactly when `arg[31:3] = 0`. -/
def Obligations.ReadOperandValidWhenHighBitsZero : Prop :=
  ∀ arg : BitVec 32, valid arg.toInt = true ↔ arg.extractLsb' 3 29 = 0#29

/-- R52: the three byte formulas, on numbers. -/
def Obligations.EncoderByteFormulas : Prop :=
  ∀ ch : Nat, ch ≤ 7 →
    (enc (channelField ch)).byte0.toNat = 6 ||| ((ch &&& 4) >>> 2) ∧
    (enc (channelField ch)).byte1.toNat = (ch &&& 3) <<< 6 ∧
    (enc (channelField ch)).byte2.toNat = 0

/-- R53: the word form. -/
def Obligations.EncoderWordForm : Prop :=
  ∀ ch : Nat, ch ≤ 7 → (frameWord (enc (channelField ch))).toNat = 0x060000 ||| (ch <<< 14)

/-- R54: CHAN inverts ENC on its image, IsCommandFrame is true exactly on that image, and CHAN is bits 16..14. -/
def Obligations.ChannelRecovery : Prop :=
  (∀ c : ChannelField, chan (enc c) = c ∧ isCommandFrame (frameWord (enc c)) = true) ∧
  (∀ w : FrameWord, isCommandFrame w = true → frameWord (enc (chan (frameOfWord w))) = w) ∧
  (∀ w : FrameWord, isCommandFrame w = true ↔ ∃ c : ChannelField, w = frameWord (enc c)) ∧
  (∀ w : FrameWord, chan (frameOfWord w) = w.extractLsb' 14 3)

/-- R55: distinct channels give distinct frames. -/
def Obligations.EncoderInjective : Prop :=
  ∀ ch ch' : Int, valid ch = true → valid ch' = true →
    enc (channelField ch) = enc (channelField ch') → ch = ch'

/-! ### Response decoder and the wire -/

/-- R59: the sample formula, on numbers. -/
def Obligations.DecoderFormula : Prop :=
  ∀ r : Frame, (dec r).toNat = ((r.byte1.toNat &&& 0x0F) <<< 8) ||| r.byte2.toNat

/-- R60: the result is in [0, 4095], and every value there is the result of exactly 2^12 frames: the frames it comes from
are numbered, one to one, by a 12-bit number. -/
def Obligations.EverySampleComesFromFourThousandFrames : Prop :=
  (∀ r : Frame, (dec r).toNat ≤ 4095) ∧
  ∀ v : Nat, v ≤ 4095 → ∃ frameOf : BitVec 12 → Frame,
    Function.Injective frameOf ∧ ∀ r : Frame, (dec r).toNat = v ↔ ∃ n, frameOf n = r

/-- R61: the Sample depends on byte1's low nibble and byte2, and on nothing else of the response. -/
def Obligations.SampleDependsOnTwelveBits : Prop :=
  ∀ r r' : Frame, dec r = dec r' ↔ (r.byte1 &&& 0x0F#8 = r'.byte1 &&& 0x0F#8 ∧ r.byte2 = r'.byte2)

/-- R28, R29: in bit period k the command bit F[23-k] goes out while the response bit R[23-k] comes in. -/
def Obligations.FullDuplexBitPairing : Prop :=
  ∀ (command response : Frame) (k : Nat), k < 24 →
    (exchangeBits command response)[k]? =
      some ((frameWord command).getLsbD (23 - k), (frameWord response).getLsbD (23 - k))

/-- R75: the serial pattern of a command, and the bit periods the Sample arrives in. -/
def Obligations.SerialOrderOfOneExchange : Prop :=
  (∀ c : ChannelField, wireBits (enc c) =
    List.replicate 5 false ++ [true, true] ++ [c.getLsbD 2, c.getLsbD 1, c.getLsbD 0] ++
      List.replicate 14 false) ∧
  ∀ (r : Frame) (j : Nat), j < 12 → (wireBits r)[12 + j]? = some ((dec r).getLsbD (11 - j))

/-- R84: the four codes. -/
def Obligations.StatusCodes : Prop :=
  ∀ E : Type, (∀ p, statusCode (.ok p : Result.Of E) = 0#2) ∧ statusCode (.err .channelOutOfRange : Result.Of E) = 1#2 ∧
    statusCode (.err .transportUnavailable : Result.Of E) = 2#2 ∧
    ∀ e : E, statusCode (.err (.transferFailed e)) = 3#2

/-! ### READ -/

/-- R66 (and R90.1): on a Closed block a READ of any operand, valid or not, answers TransportUnavailable in the same step,
with no Transfer and no change of the block. -/
def Obligations.ReadOnClosedBlock : Prop :=
  ∀ (ch : Int) (s : State), s.block.phase = .idle → s.block.life = .closed →
    exec (.read ch) s = .next { s with
      response := some (.err .transportUnavailable)
      requesters := s.requesters.map (Requester.Of.receive (.err .transportUnavailable))
      trace := .respond (.err .transportUnavailable) :: s.trace }

/-- R67: on an Open block a READ of an invalid channel answers ChannelOutOfRange in the same step, with no Transfer and
no change of the block. -/
def Obligations.ReadOutOfRange : Prop :=
  ∀ (ch : Int) (s : State), s.block.phase = .idle → s.block.life = .opened → (ch < 0 ∨ ch > 7) →
    exec (.read ch) s = .next { s with
      response := some (.err .channelOutOfRange)
      requesters := s.requesters.map (Requester.Of.receive (.err .channelOutOfRange))
      trace := .respond (.err .channelOutOfRange) :: s.trace }

/-- R68: the issue of a READ: TX, PHASE, one Transfer of the frame's three bytes on HANDLE, and no result. -/
def Obligations.ReadIssuesOneTransfer : Prop :=
  ∀ (ch : Int) (h : Handle) (f : FrameWord) (s : State),
    s.block.phase = .idle → s.block.life = .opened → s.block.handle = some h → 0 ≤ ch → ch ≤ 7 →
    f = frameWord (enc (channelField ch)) →
    exec (.read ch) s = .next { s with
      block := { s.block with tx := some f, phase := .busy }
      trace := .transfer h ⟨f.extractLsb' 16 8, f.extractLsb' 8 8, f.extractLsb' 0 8⟩ :: s.trace }

/-- R69: the Transport's `ok` of three bytes, listed or free, completes the read with the decoded Sample, ends the Busy
phase and keeps no copy in the block. -/
def Obligations.ReadCompletesWithItsSample : Prop :=
  ∀ (c : ChannelField) (b0 b1 b2 : Byte) (d : Draws) (s : State), s.block.phase = .busy →
    s.draws.transferAnswer s.block.handle s.block.tx = (some (.ok [b0, b1, b2]), d) →
    exec (.mcp3208SeRead c) s = .next { s with
      block := { s.block with tx := none, phase := .idle }
      response := some (.ok (.sample (dec ⟨b0, b1, b2⟩)))
      requesters := s.requesters.map (Requester.Of.receive (.ok (.sample (dec ⟨b0, b1, b2⟩))))
      draws := d
      trace := .respond (.ok (.sample (dec ⟨b0, b1, b2⟩))) :: .answered (.ok [b0, b1, b2]) :: s.trace }

/-- R70, R73, R88: the Transport's `err e` completes the read with TransferFailed(e) and no Sample, whatever `e` reports;
LIFE, HANDLE and CFG stay, and a later READ issues a new Transfer. -/
def Obligations.TransferErrorFailsTheRead : Prop :=
  ∀ (c : ChannelField) (e : TErr) (d : Draws) (s : State), s.block.phase = .busy →
    s.draws.transferAnswer s.block.handle s.block.tx = (some (.err e), d) →
    ∃ t, exec (.mcp3208SeRead c) s = .next t ∧
      t = { s with
        block := { s.block with tx := none, phase := .idle }
        response := some (.err (.transferFailed e))
        requesters := s.requesters.map (Requester.Of.receive (.err (.transferFailed e)))
        draws := d
        trace := .respond (.err (.transferFailed e)) :: .answered (.err e) :: s.trace } ∧
      ∀ (ch : Int) (h : Handle), 0 ≤ ch → ch ≤ 7 → s.block.life = .opened → s.block.handle = some h →
        ∃ u, exec (.read ch) t = .next u ∧ u.block.phase = .busy ∧
          u.block.tx = some (frameWord (enc (channelField ch))) ∧
          transfersOf u.trace = (h, enc (channelField ch)) :: transfersOf t.trace

/-- R30, R88: an `ok` of another length than three bytes is a TransferFailed; its cause is a value the spec does not state
(log 8), so nothing is said of it. -/
def Obligations.WrongLengthAnswerFailsTheRead : Prop :=
  ∀ (c : ChannelField) (bytes : List Byte) (d : Draws) (s : State), s.block.phase = .busy → bytes.length ≠ 3 →
    s.draws.transferAnswer s.block.handle s.block.tx = (some (.ok bytes), d) →
    ∃ e, exec (.mcp3208SeRead c) s = .next { s with
      block := { s.block with tx := none, phase := .idle }
      response := some (.err (.transferFailed e))
      requesters := s.requesters.map (Requester.Of.receive (.err (.transferFailed e)))
      draws := d
      trace := .respond (.err (.transferFailed e)) :: .answered (.ok bytes) :: s.trace }

/-- R71: while the Transport has not answered, the exchange in flight goes on and nothing but the draw is used. -/
def Obligations.UnansweredTransferStaysBusy : Prop :=
  ∀ (c : ChannelField) (d : Draws) (s : State), s.block.phase = .busy →
    s.draws.transferAnswer s.block.handle s.block.tx = (none, d) →
    exec (.mcp3208SeRead c) s = .next { s with draws := d }

/-- R57, R68: the wire command's emission: ENC(c) is the `out` of one Transfer and stands in TX. That the instruction, run
on an Idle block, is this emission, and answers TransportUnavailable on a Closed one, is the model's reading (log 9). -/
def Obligations.WireCommandEmission : Prop :=
  ∀ (c : ChannelField) (s : State), s.block.phase = .idle →
    (∀ h, s.block.life = .opened → s.block.handle = some h →
      exec (.mcp3208SeRead c) s = .next { s with
        block := { s.block with tx := some (frameWord (enc c)), phase := .busy }
        trace := .transfer h (enc c) :: s.trace }) ∧
    (s.block.life = .closed →
      exec (.mcp3208SeRead c) s = .next { s with
        response := some (.err .transportUnavailable)
        requesters := s.requesters.map (Requester.Of.receive (.err .transportUnavailable))
        trace := .respond (.err .transportUnavailable) :: s.trace })

/-! ### OPEN and CLOSE -/

/-- R76: OPEN on a Closed block, with both calls answered `ok`: the calls, in order, with mode 0 and MSB-first order, and
the three registers. Holds of every Closed block, opened before or not (R82). -/
def Obligations.OpenAcquiresTheHandle : Prop :=
  ∀ (cfg : OpenConfig) (h : Handle) (d d' : Draws) (s : State), s.block.phase = .idle → s.block.life = .closed →
    s.draws.openAnswer cfg.bus cfg.device = (.ok h, d) → d.configureAnswer h cfg.speedHz = (.ok, d') →
    exec (.openReq cfg) s = .next { s with
      block := { s.block with life := .opened, handle := some h, cfg := some cfg }
      response := some (.ok .none)
      requesters := s.requesters.map (Requester.Of.receive (.ok .none))
      draws := d'
      trace := .respond (.ok .none) :: .tConfigure h cfg.speedHz 0 .msbFirst .ok ::
        .tOpen cfg.bus cfg.device (.ok h) :: s.trace }

/-- R77 (a) and (b): both failure paths answer TransportUnavailable and leave the block as it was; TClose is called once
when, and only when, a handle was returned. -/
def Obligations.OpenFailureLeavesTheBlockClosed : Prop :=
  ∀ (cfg : OpenConfig) (d : Draws) (s : State), s.block.phase = .idle → s.block.life = .closed →
    (∀ e, s.draws.openAnswer cfg.bus cfg.device = (.err e, d) →
      exec (.openReq cfg) s = .next { s with
        response := some (.err .transportUnavailable)
        requesters := s.requesters.map (Requester.Of.receive (.err .transportUnavailable))
        draws := d
        trace := .respond (.err .transportUnavailable) :: .tOpen cfg.bus cfg.device (.err e) :: s.trace }) ∧
    (∀ h e d', s.draws.openAnswer cfg.bus cfg.device = (.ok h, d) →
      d.configureAnswer h cfg.speedHz = (.err e, d') →
      exec (.openReq cfg) s = .next { s with
        response := some (.err .transportUnavailable)
        requesters := s.requesters.map (Requester.Of.receive (.err .transportUnavailable))
        draws := d'
        trace := .respond (.err .transportUnavailable) :: .tClose h ::
          .tConfigure h cfg.speedHz 0 .msbFirst (.err e) :: .tOpen cfg.bus cfg.device (.ok h) :: s.trace })

/-- R78: OPEN on an Open block is refused. -/
def Obligations.OpenOnOpenBlockRefused : Prop :=
  ∀ (cfg : OpenConfig) (s : State), s.block.phase = .idle → s.block.life = .opened →
    exec (.openReq cfg) s = .refused .openWhileOpen

/-- R79: CLOSE on an Open block passes the handle to TClose once and clears the three registers. -/
def Obligations.CloseReleasesTheHandle : Prop :=
  ∀ (h : Handle) (s : State), s.block.phase = .idle → s.block.life = .opened → s.block.handle = some h →
    exec .close s = .next { s with
      block := { s.block with life := .closed, handle := none, cfg := none }
      response := some (.ok .none)
      requesters := s.requesters.map (Requester.Of.receive (.ok .none))
      trace := .respond (.ok .none) :: .tClose h :: s.trace }

/-- R80: CLOSE on a Closed block answers ok, with no Transport call and no change of the block. -/
def Obligations.CloseOnClosedBlock : Prop :=
  ∀ s : State, s.block.phase = .idle → s.block.life = .closed →
    exec .close s = .next { s with
      response := some (.ok .none)
      requesters := s.requesters.map (Requester.Of.receive (.ok .none))
      trace := .respond (.ok .none) :: s.trace }

/-- The model's reading of R65 (log 11): `exec` of a host request on a Busy block, which no step asks for, is the request
being held: nothing changes and nothing is answered. -/
def Obligations.RequestsAreHeldWhileBusy : Prop :=
  ∀ s : State, s.block.phase = .busy →
    (∀ cfg, exec (.openReq cfg) s = .next s) ∧ (∀ ch, exec (.read ch) s = .next s) ∧ exec .close s = .next s

/-- The model's reading (log 21): a result reaches the agent marked as waiting for it, and no other. R24 gives each accepted
request its one result; R95 gives requesters no identifiers. -/
def Obligations.ResultReachesTheWaitingAgent : Prop :=
  ∀ (r : Result) (q : Requester),
    (q.waiting = true → q.receive r = { q with waiting := false, results := r :: q.results }) ∧
    (q.waiting = false → q.receive r = q)

/-- The model's choice (log 10): states against R15 (a valid READ, the wire command's emission, CLOSE) and against R19 or
R48 (a step in PHASE Busy) fault, each by its name. -/
def Obligations.StatesAgainstTheInvariantsFault : Prop :=
  (∀ s : State, s.block.phase = .idle → s.block.life = .opened → s.block.handle = none →
    (∀ ch, 0 ≤ ch → ch ≤ 7 → exec (.read ch) s = .fault .openWithoutHandle) ∧
    (∀ c, exec (.mcp3208SeRead c) s = .fault .openWithoutHandle) ∧
    exec .close s = .fault .openWithoutHandle) ∧
  (∀ s : State, s.resetAsserted = false → s.block.phase = .busy →
    (s.block.tx = none ∨ ∃ f, s.block.tx = some f ∧ isCommandFrame f = false) →
    step s = .fault .busyWithoutFrame)

/-! ### The step -/

/-- A step in PHASE Idle runs the request the port accepts (R23, R65); with one agent presenting, that is its first
pending request, and the agent then waits for the result. -/
def Obligations.StepRunsTheAcceptedRequest : Prop :=
  ∀ (s : State) (i : Instr), s.resetAsserted = false → s.block.phase = .idle →
    (∀ r t, acceptRequest { s with response := none } = some (r, t) → decodeRequest r = .ok i →
      step s = exec i t) ∧
    (∀ r rest results, s.requesters = [⟨r :: rest, false, results⟩] → decodeRequest r = .ok i →
      step s = exec i { s with
        response := none
        requesters := [⟨rest, true, results⟩]
        trace := .accepted r :: s.trace })

/-- A step in PHASE Busy runs the wire command in TX (R57, R64; log 9). -/
def Obligations.StepRunsTheCommandInFlight : Prop :=
  ∀ (s : State) (f : FrameWord), s.resetAsserted = false → s.block.phase = .busy → s.block.tx = some f →
    isCommandFrame f = true →
    step s = exec (.mcp3208SeRead (chan (frameOfWord f))) { s with response := none }

/-- R83: a reserved request, once it is the one accepted, is refused whatever the block's state: no call, no result, no
next state; with one agent presenting, it is that agent's. -/
def Obligations.ReservedRequestRefused : Prop :=
  ∀ (s : State) (r : Request), s.resetAsserted = false → s.block.phase = .idle →
    requestOp r.word ≠ 1#4 → requestOp r.word ≠ 2#4 → requestOp r.word ≠ 3#4 →
    (∀ t, acceptRequest { s with response := none } = some (r, t) →
      step s = .refused (.reservedRequest (requestOp r.word))) ∧
    (∀ rest results, s.requesters = [⟨r :: rest, false, results⟩] →
      step s = .refused (.reservedRequest (requestOp r.word)))

/-- The model's reading of R100 and R24 (log 22): Idle with nobody presenting a request, a step changes nothing but that the
port holds no result. -/
def Obligations.IdleBlockWaitsForARequest : Prop :=
  ∀ s : State, s.resetAsserted = false → s.block.phase = .idle →
    (∀ q ∈ s.requesters, q.waiting = true ∨ q.pending = []) →
    step s = .next { s with response := none }

/-- R25: the reset values the spec gives, and the hardwired mode and bit order (R17). -/
def Obligations.ResetValues : Prop :=
  State.reset.block.life = .closed ∧ State.reset.block.handle = none ∧ State.reset.block.cfg = none ∧
  State.reset.block.phase = .idle ∧ State.reset.block.tx = none ∧ State.reset.response = none ∧
  ∀ cfg : OpenConfig, cfgMode cfg = 0 ∧ cfgBitOrder cfg = .msbFirst

/-- R99: a reset asserted while Open or Busy is refused, and what power-on reset leaves. -/
def Obligations.WarmResetRefused : Prop :=
  State.reset.block = { life := .closed, handle := none, cfg := none, phase := .idle, tx := none } ∧
  State.reset.response = none ∧
  ∀ s : State, s.resetAsserted = true → s.block.life = .opened ∨ s.block.phase = .busy →
    step s = .refused .warmReset

/-- The model's reading of R99 (log 12): a reset asserted while Closed and Idle gives the power-on values. -/
def Obligations.ResetWhileClosedAndIdle : Prop :=
  ∀ s : State, s.resetAsserted = true → s.block.life = .closed → s.block.phase = .idle →
    step s = .next { s with
      block := { life := .closed, handle := none, cfg := none, phase := .idle, tx := none }
      response := none
      resetAsserted := false }

/-- R23, R34, R36: whichever agent presents a request, some choice of the arbiter accepts that agent's request. And with
every choice, listed or free, a port on which an agent presents a request accepts one: the first pending request of one
agent that is not waiting. Acceptance leaves every other agent, the block, the response port, the reset input and the
Transport's listed answers as they are. A port on which nobody presents a request accepts none. -/
def Obligations.ArbitrationAdmitsEveryOrder : Prop :=
  (∀ (s : State) (k : Nat) (q : Requester) (r : Request) (rest : List Request),
    s.requesters[k]? = some q → q.waiting = false → q.pending = r :: rest →
    ∃ n t, acceptRequest { s with draws := { s.draws with choice := n :: s.draws.choice } } = some (r, t) ∧
      t.requesters = s.requesters.set k { q with pending := rest, waiting := true } ∧ t.block = s.block) ∧
  (∀ s : State, (∃ q ∈ s.requesters, q.waiting = false ∧ q.pending ≠ []) →
    ∃ (k : Nat) (q : Requester) (r : Request) (rest : List Request) (choice : List Nat) (count : Nat),
      s.requesters[k]? = some q ∧ q.waiting = false ∧ q.pending = r :: rest ∧
      acceptRequest s = some (r, { s with
        draws := { s.draws with choice := choice, count := count }
        requesters := s.requesters.set k { q with pending := rest, waiting := true }
        trace := .accepted r :: s.trace })) ∧
  ∀ s : State, (∀ q ∈ s.requesters, q.waiting = true ∨ q.pending = []) → acceptRequest s = none

/-- R23, R65: a step in PHASE Busy takes no request from any agent and accepts none. -/
def Obligations.HeldRequestsStayAtThePort : Prop :=
  ∀ s t : State, s.resetAsserted = false → s.block.phase = .busy → step s = .next t →
    t.requesters.map (fun q => q.pending) = s.requesters.map (fun q => q.pending) ∧
    ∀ r, t.trace.count (.accepted r) = s.trace.count (.accepted r)

/-- R14, R72: only an accepted OPEN or CLOSE writes LIFE, HANDLE or CFG. -/
def Obligations.OnlyOpenAndCloseWriteTheLifecycle : Prop :=
  ∀ s t : State, s.resetAsserted = false → step s = .next t →
    (t.block.life ≠ s.block.life ∨ t.block.handle ≠ s.block.handle ∨ t.block.cfg ≠ s.block.cfg) →
    s.block.phase = .idle ∧ ∃ r u, acceptRequest { s with response := none } = some (r, u) ∧
      (requestOp r.word = 1#4 ∨ requestOp r.word = 3#4)

/-- R18, R71: Busy ends only in a step in which the Transport answers, and begins only with an accepted READ. -/
def Obligations.PhaseChangesOnlyByReadAndAnswer : Prop :=
  ∀ s t : State, s.resetAsserted = false → step s = .next t →
    (s.block.phase = .busy → t.block.phase = .idle →
      ∃ a d, s.draws.transferAnswer s.block.handle s.block.tx = (some a, d)) ∧
    (s.block.phase = .idle → t.block.phase = .busy →
      ∃ r u, acceptRequest { s with response := none } = some (r, u) ∧ requestOp r.word = 2#4)

/-- R91: a step that delivers an error leaves the block as it was before the request. -/
def Obligations.ErrorsLeaveTheBlockUnchanged : Prop :=
  ∀ (s t : State) (e : Error), step s = .next t → t.response = some (.err e) →
    (s.block.phase = .idle → t.block = s.block) ∧
    (s.block.phase = .busy → t.block = { s.block with phase := .idle, tx := none })

/-- R71: without a reset, a Transport that does not answer for n+1 steps leaves the block Busy, every request held and
nothing observed, for every n. The reset input is low at the start; that it stays low over the run, since no step asserts
it, is the model's choice (log 24). -/
def Obligations.SilentTransportHangsTheBlock : Prop :=
  ∀ (n : Nat) (s : State) (later : List (Option TransferAnswer)), s.block.Wf → s.block.phase = .busy →
    s.resetAsserted = false → s.draws.transfer = List.replicate (n + 1) none ++ later →
    run (n + 1) s = .next { s with response := none, draws := { s.draws with transfer := later } }

/-- R33, R37: on an Open block whose Transport always answers the same three bytes, READs of any valid channels, one after
the other and without a reset, give the same Sample each time, and their Transfers reach the Transport in the order of the
READs. The reset input is low at the start; that it stays low over the run, since no step asserts it, is the model's choice
(log 24). -/
def Obligations.RepeatedReadsGiveTheSameSample : Prop :=
  ∀ (chs : List Int) (b0 b1 b2 : Byte) (h : Handle) (results : List Result)
    (later : List (Option TransferAnswer)) (s : State),
    (∀ ch ∈ chs, 0 ≤ ch ∧ ch ≤ 7) → s.block.Wf → s.block.handle = some h → s.block.phase = .idle →
    s.resetAsserted = false →
    s.requesters = [⟨chs.map (fun ch => ⟨requestWord 2#4 (BitVec.ofInt 32 ch), noConfig⟩), false, results⟩] →
    s.draws.transfer = List.replicate chs.length (some (.ok [b0, b1, b2])) ++ later →
    ∃ t, run (2 * chs.length) s = .next t ∧ t.block = s.block ∧
      t.requesters = [⟨[], false, List.replicate chs.length (.ok (.sample (dec ⟨b0, b1, b2⟩))) ++ results⟩] ∧
      transfersOf t.trace = (chs.map (fun ch => (h, enc (channelField ch)))).reverse ++ transfersOf s.trace

/-- R66, R87: on a Closed block every READ of a host that makes only READs, one after the other and without
a reset, answers TransportUnavailable, with no Transfer and no change of the block. The reset input is low at the start;
that it stays low over the run, since no step asserts it, is the model's choice (log 24). -/
def Obligations.ReadsOfAClosedBlockAllFail : Prop :=
  ∀ (requests : List Request) (results : List Result) (s : State),
    (∀ r ∈ requests, requestOp r.word = 2#4) → s.block.life = .closed → s.block.phase = .idle →
    s.resetAsserted = false → s.requesters = [⟨requests, false, results⟩] →
    ∃ t, run requests.length s = .next t ∧ t.block = s.block ∧
      t.requesters = [⟨[], false, List.replicate requests.length (.err .transportUnavailable) ++ results⟩] ∧
      transfersOf t.trace = transfersOf s.trace

/-! ### Invariants of every step -/

/-- The state after reset meets every invariant below. The block's record is R25's; that the trace is empty and no agent
presents a request is the model's choice (log 6), and all but the first invariant rest on it. -/
def Obligations.ResetMeetsTheInvariants : Prop :=
  State.reset.block.Wf ∧ State.reset.Serial ∧ State.reset.ReleaseLedger ∧ State.reset.ConfiguredLedger ∧
  State.reset.OneWaits

/-- R15, R16, R19, R48: every step keeps the invariants of the block's record. -/
def Obligations.StepKeepsTheBlockInvariants : Prop :=
  ∀ s t : State, s.block.Wf → step s = .next t → t.block.Wf

/-- R24, R33, R92: every step keeps the exchanges and the requests one at a time: no two Transfers overlap, and each
accepted request has its one result before the next is accepted. -/
def Obligations.StepKeepsOneExchangeAtATime : Prop :=
  ∀ s t : State, s.block.Wf → s.Serial → step s = .next t → t.Serial

/-- R77, R81: every step keeps the release ledger: each time TOpen returned a handle it was passed to TClose once, but
for the handle in HANDLE. -/
def Obligations.StepKeepsTheReleaseLedger : Prop :=
  ∀ s t : State, s.block.Wf → s.ReleaseLedger → step s = .next t → t.ReleaseLedger

/-- R48, R103: every step keeps the configuration ledger: HANDLE is configured for CFG's speed with mode 0 and MSB-first
order, and every Transfer sent a command frame on a configured handle. -/
def Obligations.StepKeepsTheConfigurationLedger : Prop :=
  ∀ s t : State, s.block.Wf → s.ConfiguredLedger → step s = .next t → t.ConfiguredLedger

/-- R65, R90: every step keeps exactly one agent waiting while Busy, and none while Idle. -/
def Obligations.StepKeepsOneAgentWaiting : Prop :=
  ∀ s t : State, s.OneWaits → step s = .next t → t.OneWaits

/-- What has been observed stays observed: a step only adds to the trace (log 1). -/
def Obligations.TraceOnlyGrows : Prop :=
  ∀ s t : State, step s = .next t → s.trace <:+ t.trace

/-- R20, R33, R62: what a step does, and the result it delivers, do not depend on the results, the response port or the
trace of earlier steps. -/
def Obligations.StepDependsOnNoHistory : Prop :=
  ∀ s s' : State, s.live = s'.live →
    match step s, step s' with
    | .next t, .next t' => t.live = t'.live ∧ t.response = t'.response
    | .fault f, .fault f' => f = f'
    | .refused r, .refused r' => r = r'
    | _, _ => False

/-- R78, R83, R99: a step from a state that meets the block's invariants never faults, and refuses only a warm reset, a
reserved request, or an OPEN on an Open block. -/
def Obligations.StepStopsOnlyWhereTheSpecRefuses : Prop :=
  ∀ s : State, s.block.Wf →
    (∀ f, step s ≠ .fault f) ∧
    ∀ why, step s = .refused why →
      (why = .warmReset ∧ s.resetAsserted = true ∧ (s.block.life = .opened ∨ s.block.phase = .busy)) ∨
      ∃ r t, acceptRequest { s with response := none } = some (r, t) ∧
        ((why = .reservedRequest (requestOp r.word) ∧ requestOp r.word ≠ 1#4 ∧ requestOp r.word ≠ 2#4 ∧
            requestOp r.word ≠ 3#4) ∨
          (why = .openWhileOpen ∧ requestOp r.word = 1#4 ∧ s.block.life = .opened))

/-- R74 defines the end of a run. That the steps after it change nothing but that the response port shows no result is the
model's reading (log 22): the block waits (R100). The reset input is low at the start; that it stays low over the run,
since no step asserts it, is the model's choice (log 24). -/
def Obligations.EndedRunStaysEnded : Prop :=
  ∀ (n : Nat) (s : State), s.resetAsserted = false → s.Ended →
    run (n + 1) s = .next { s with response := none }
end

