-- ==== Sys2Proof/Laws/Operands.lean ====
section
/-! SUPPORT. The word layouts of Decode.lean and Machine/Operands.lean, bit by bit and field by field. -/

namespace Sys2Proof.Machine

/-! ### HREQ36 -/

theorem requestWordAt_getLsbD (n : Nat) (op : BitVec 4) (arg : BitVec n) (i : Nat) :
    (requestWordAt n op arg).getLsbD i = if i < n then arg.getLsbD i else op.getLsbD (i - n) := by
  rw [requestWordAt, BitVec.getLsbD_cast, BitVec.getLsbD_append]

@[simp] theorem requestOpAt_requestWordAt (n : Nat) (op : BitVec 4) (arg : BitVec n) :
    requestOpAt n (requestWordAt n op arg) = op := by
  apply BitVec.eq_of_getLsbD_eq
  intro i hi
  simp [requestOpAt, BitVec.getLsbD_extractLsb', requestWordAt_getLsbD, hi, -BitVec.getLsbD_eq_getElem]

@[simp] theorem requestArgAt_requestWordAt (n : Nat) (op : BitVec 4) (arg : BitVec n) :
    requestArgAt n (requestWordAt n op arg) = arg := by
  apply BitVec.eq_of_getLsbD_eq
  intro i hi
  simp [requestArgAt, requestWordAt_getLsbD, hi]

theorem requestWord_getLsbD (op : BitVec 4) (arg : BitVec 32) (i : Nat) :
    (requestWord op arg).getLsbD i = if i < 32 then arg.getLsbD i else op.getLsbD (i - 32) :=
  requestWordAt_getLsbD Config.chW op arg i

@[simp] theorem requestOp_requestWord (op : BitVec 4) (arg : BitVec 32) :
    requestOp (requestWord op arg) = op := requestOpAt_requestWordAt Config.chW op arg

@[simp] theorem requestArg_requestWord (op : BitVec 4) (arg : BitVec 32) :
    requestArg (requestWord op arg) = arg := requestArgAt_requestWordAt Config.chW op arg

/-- The request codes, one case each. -/
theorem requestOp_cases (op : BitVec 4) :
    (op.toNat = 1 ↔ op = 1#4) ∧ (op.toNat = 2 ↔ op = 2#4) ∧ (op.toNat = 3 ↔ op = 3#4) := by
  revert op; decide

/-- The request decoder on its two fields. -/
theorem decodeRequest_fields (r : Request) :
    decodeRequest r =
      (match (requestOp r.word).toNat with
        | 1 => .ok (.openReq r.cfg)
        | 2 => .ok (.read (requestArg r.word).toInt)
        | 3 => .ok .close
        | _ => .error (.reservedRequest (requestOp r.word))) := rfl

theorem decodeRequest_open {r : Request} (h : requestOp r.word = 1#4) :
    decodeRequest r = .ok (.openReq r.cfg) := by simp [decodeRequest_fields, h]

theorem decodeRequest_read {r : Request} (h : requestOp r.word = 2#4) :
    decodeRequest r = .ok (.read (requestArg r.word).toInt) := by simp [decodeRequest_fields, h]

theorem decodeRequest_close {r : Request} (h : requestOp r.word = 3#4) :
    decodeRequest r = .ok .close := by simp [decodeRequest_fields, h]

theorem decodeRequest_reserved {r : Request} (h1 : requestOp r.word ≠ 1#4) (h2 : requestOp r.word ≠ 2#4)
    (h3 : requestOp r.word ≠ 3#4) : decodeRequest r = .error (.reservedRequest (requestOp r.word)) := by
  obtain ⟨e1, e2, e3⟩ := requestOp_cases (requestOp r.word)
  rw [decodeRequest_fields]
  split <;> simp_all

/-! ### The fixed machine's codec -/

@[simp] theorem encode_openReq (cfg : OpenConfig) :
    encode (.openReq cfg) = .hreq36 ⟨requestWord 1#4 0#32, cfg⟩ := rfl
@[simp] theorem encode_read (ch : Int) :
    encode (.read ch) = .hreq36 ⟨requestWord 2#4 (BitVec.ofInt 32 ch), noConfig⟩ := rfl
@[simp] theorem encode_close : encode .close = .hreq36 ⟨requestWord 3#4 0#32, noConfig⟩ := rfl
@[simp] theorem encode_mcp3208SeRead (c : ChannelField) :
    encode (.mcp3208SeRead c) = .cmd24 (commandWord c) := rfl
@[simp] theorem decode_hreq36 (r : Request) : decode (.hreq36 r) = decodeRequest r := rfl
@[simp] theorem decode_cmd24 (f : FrameWord) : decode (.cmd24 f) = decodeCommand f := rfl

/-! ### Frames -/

theorem frameWord_getLsbD (f : Frame) (i : Nat) :
    (frameWord f).getLsbD i =
      if i < 8 then f.byte2.getLsbD i
      else if i < 16 then f.byte1.getLsbD (i - 8) else f.byte0.getLsbD (i - 16) := by
  have h : (frameWord f).getLsbD i = (f.byte0 ++ f.byte1 ++ f.byte2).getLsbD i := rfl
  rw [h, BitVec.getLsbD_append, BitVec.getLsbD_append]
  split
  · rfl
  · next h8 =>
    by_cases h16 : i < 16
    · rw [if_pos h16, if_pos (by omega)]
    · rw [if_neg h16, if_neg (by omega), Nat.sub_sub]

@[simp] theorem frameOfWord_frameWord (f : Frame) : frameOfWord (frameWord f) = f := by
  obtain ⟨b0, b1, b2⟩ := f
  simp only [frameOfWord, Frame.mk.injEq]
  refine ⟨?_, ?_, ?_⟩ <;>
    (apply BitVec.eq_of_getLsbD_eq; intro i hi; simp [frameWord_getLsbD, hi])
  all_goals (intro h; omega)

@[simp] theorem frameWord_frameOfWord (w : FrameWord) : frameWord (frameOfWord w) = w := by
  apply BitVec.eq_of_getLsbD_eq
  intro i hi
  simp only [frameWord_getLsbD, frameOfWord, BitVec.getLsbD_extractLsb']
  split
  · next h => simp [h]
  · next h8 =>
    split
    · next h16 => simp [show i - 8 < 8 by omega, show 8 + (i - 8) = i by omega]
    · next h16 => simp [show i - 16 < 8 by omega, show 16 + (i - 16) = i by omega]

/-- R52's bytes and R39's fields are the same frame. -/
theorem frameWord_enc (c : ChannelField) : frameWord (enc c) = commandWord c := by
  revert c; decide

/-- R42: the Sample is the low 12 bits of the response word. -/
theorem dec_getLsbD (r : Frame) (i : Nat) (hi : i < 12) : (dec r).getLsbD i = (frameWord r).getLsbD i := by
  have low : ∀ j < 12, (0x0F#12).getLsbD j = decide (j < 4) := by decide
  have nibble : (r.byte1 &&& 0x0F#8).zeroExtend 12 = r.byte1.zeroExtend 12 &&& 0x0F#12 := by
    simp
  simp only [dec, nibble, frameWord_getLsbD]
  by_cases h : i < 8
  · simp [h, hi]
  · have h16 : i < 16 := by omega
    simp [h, hi, h16, low (i - 8) (by omega), show i - 8 < 12 by omega, show i - 8 < 4 by omega,
      BitVec.getLsbD_of_ge r.byte2 i (by omega)]

/-- A valid channel is a number below 8. -/
theorem valid_iff (ch : Int) : valid ch = true ↔ 0 ≤ ch ∧ ch ≤ 7 := by
  simp [valid]

/-- An answer of exactly three bytes is a Response Frame (R30). -/
theorem responseFrame_eq_some {bytes : List Byte} {r : Frame} (h : responseFrame bytes = some r) :
    bytes = [r.byte0, r.byte1, r.byte2] := by
  unfold responseFrame at h
  split at h
  · simp at h; subst h; rfl
  · cases h

theorem responseFrame_eq_none {bytes : List Byte} (h : bytes.length ≠ 3) : responseFrame bytes = none := by
  unfold responseFrame
  split
  · simp at h
  · rfl

end Sys2Proof.Machine
end

