-- ==== Sys2Proof/Laws/State.lean ====
section
/-! SUPPORT. What each operation of Machine/Ops.lean does to each field of State: one lemma a field and operation. -/

namespace Sys2Proof.Machine

variable {H E : Type} {n : Nat}

@[simp] theorem reset_block : State.reset.block = Block.reset := rfl
@[simp] theorem reset_response : State.reset.response = none := rfl
@[simp] theorem reset_resetAsserted : State.reset.resetAsserted = false := rfl
@[simp] theorem reset_requesters : State.reset.requesters = [] := rfl
@[simp] theorem reset_draws : State.reset.draws = Draws.reset := rfl
@[simp] theorem reset_trace : State.reset.trace = [] := rfl

@[simp] theorem raise_eq_respond (e : Error.Of E) (s : State.Of H E n) : raise e s = respond (.err e) s := rfl

@[simp] theorem callOpen_answer [Inhabited H] [Inhabited E] (cfg : OpenConfig) (s : State.Of H E n) :
    (callOpen cfg s).1 = (s.draws.openAnswer cfg.bus cfg.device).1 := rfl

@[simp] theorem callConfigure_answer [Inhabited E] (h : H) (cfg : OpenConfig) (s : State.Of H E n) :
    (callConfigure h cfg s).1 = (s.draws.configureAnswer h cfg.speedHz).1 := rfl

@[simp] theorem respond_block (r : Result.Of E) (s : State.Of H E n) : (respond r s).block = s.block := rfl
@[simp] theorem respond_response (r : Result.Of E) (s : State.Of H E n) : (respond r s).response = some r := rfl
@[simp] theorem respond_resetAsserted (r : Result.Of E) (s : State.Of H E n) :
    (respond r s).resetAsserted = s.resetAsserted := rfl
@[simp] theorem respond_requesters (r : Result.Of E) (s : State.Of H E n) :
    (respond r s).requesters = s.requesters.map (Requester.Of.receive r) := rfl
@[simp] theorem respond_draws (r : Result.Of E) (s : State.Of H E n) : (respond r s).draws = s.draws := rfl
@[simp] theorem respond_trace (r : Result.Of E) (s : State.Of H E n) : (respond r s).trace = .respond r :: s.trace := rfl

@[simp] theorem clearResponse_block (s : State.Of H E n) : (clearResponse s).block = s.block := rfl
@[simp] theorem clearResponse_response (s : State.Of H E n) : (clearResponse s).response = none := rfl
@[simp] theorem clearResponse_resetAsserted (s : State.Of H E n) : (clearResponse s).resetAsserted = s.resetAsserted := rfl
@[simp] theorem clearResponse_requesters (s : State.Of H E n) : (clearResponse s).requesters = s.requesters := rfl
@[simp] theorem clearResponse_draws (s : State.Of H E n) : (clearResponse s).draws = s.draws := rfl
@[simp] theorem clearResponse_trace (s : State.Of H E n) : (clearResponse s).trace = s.trace := rfl

@[simp] theorem callOpen_block [Inhabited H] [Inhabited E] (cfg : OpenConfig) (s : State.Of H E n) :
    (callOpen cfg s).2.block = s.block := rfl
@[simp] theorem callOpen_response [Inhabited H] [Inhabited E] (cfg : OpenConfig) (s : State.Of H E n) :
    (callOpen cfg s).2.response = s.response := rfl
@[simp] theorem callOpen_resetAsserted [Inhabited H] [Inhabited E] (cfg : OpenConfig) (s : State.Of H E n) :
    (callOpen cfg s).2.resetAsserted = s.resetAsserted := rfl
@[simp] theorem callOpen_requesters [Inhabited H] [Inhabited E] (cfg : OpenConfig) (s : State.Of H E n) :
    (callOpen cfg s).2.requesters = s.requesters := rfl
@[simp] theorem callOpen_draws [Inhabited H] [Inhabited E] (cfg : OpenConfig) (s : State.Of H E n) :
    (callOpen cfg s).2.draws = (s.draws.openAnswer cfg.bus cfg.device).2 := rfl
@[simp] theorem callOpen_trace [Inhabited H] [Inhabited E] (cfg : OpenConfig) (s : State.Of H E n) :
    (callOpen cfg s).2.trace = .tOpen cfg.bus cfg.device (callOpen cfg s).1 :: s.trace := rfl

@[simp] theorem callConfigure_block [Inhabited E] (h : H) (cfg : OpenConfig) (s : State.Of H E n) :
    (callConfigure h cfg s).2.block = s.block := rfl
@[simp] theorem callConfigure_response [Inhabited E] (h : H) (cfg : OpenConfig) (s : State.Of H E n) :
    (callConfigure h cfg s).2.response = s.response := rfl
@[simp] theorem callConfigure_resetAsserted [Inhabited E] (h : H) (cfg : OpenConfig) (s : State.Of H E n) :
    (callConfigure h cfg s).2.resetAsserted = s.resetAsserted := rfl
@[simp] theorem callConfigure_requesters [Inhabited E] (h : H) (cfg : OpenConfig) (s : State.Of H E n) :
    (callConfigure h cfg s).2.requesters = s.requesters := rfl
@[simp] theorem callConfigure_draws [Inhabited E] (h : H) (cfg : OpenConfig) (s : State.Of H E n) :
    (callConfigure h cfg s).2.draws = (s.draws.configureAnswer h cfg.speedHz).2 := rfl
@[simp] theorem callConfigure_trace [Inhabited E] (h : H) (cfg : OpenConfig) (s : State.Of H E n) :
    (callConfigure h cfg s).2.trace = .tConfigure h cfg.speedHz 0 .msbFirst (callConfigure h cfg s).1 :: s.trace := rfl

@[simp] theorem callClose_block (h : H) (s : State.Of H E n) : (callClose h s).block = s.block := rfl
@[simp] theorem callClose_response (h : H) (s : State.Of H E n) : (callClose h s).response = s.response := rfl
@[simp] theorem callClose_resetAsserted (h : H) (s : State.Of H E n) :
    (callClose h s).resetAsserted = s.resetAsserted := rfl
@[simp] theorem callClose_requesters (h : H) (s : State.Of H E n) : (callClose h s).requesters = s.requesters := rfl
@[simp] theorem callClose_draws (h : H) (s : State.Of H E n) : (callClose h s).draws = s.draws := rfl
@[simp] theorem callClose_trace (h : H) (s : State.Of H E n) : (callClose h s).trace = .tClose h :: s.trace := rfl

@[simp] theorem acquire_block (h : H) (cfg : OpenConfig) (s : State.Of H E n) :
    (acquire h cfg s).block = { s.block with life := .opened, handle := some h, cfg := some cfg } := rfl
@[simp] theorem acquire_response (h : H) (cfg : OpenConfig) (s : State.Of H E n) :
    (acquire h cfg s).response = s.response := rfl
@[simp] theorem acquire_resetAsserted (h : H) (cfg : OpenConfig) (s : State.Of H E n) :
    (acquire h cfg s).resetAsserted = s.resetAsserted := rfl
@[simp] theorem acquire_requesters (h : H) (cfg : OpenConfig) (s : State.Of H E n) :
    (acquire h cfg s).requesters = s.requesters := rfl
@[simp] theorem acquire_draws (h : H) (cfg : OpenConfig) (s : State.Of H E n) : (acquire h cfg s).draws = s.draws := rfl
@[simp] theorem acquire_trace (h : H) (cfg : OpenConfig) (s : State.Of H E n) : (acquire h cfg s).trace = s.trace := rfl

@[simp] theorem release_block (s : State.Of H E n) :
    (release s).block = { s.block with life := .closed, handle := none, cfg := none } := rfl
@[simp] theorem release_response (s : State.Of H E n) : (release s).response = s.response := rfl
@[simp] theorem release_resetAsserted (s : State.Of H E n) : (release s).resetAsserted = s.resetAsserted := rfl
@[simp] theorem release_requesters (s : State.Of H E n) : (release s).requesters = s.requesters := rfl
@[simp] theorem release_draws (s : State.Of H E n) : (release s).draws = s.draws := rfl
@[simp] theorem release_trace (s : State.Of H E n) : (release s).trace = s.trace := rfl

@[simp] theorem issueTransfer_block (h : H) (f : FrameWord) (s : State.Of H E n) :
    (issueTransfer h f s).block = { s.block with tx := some f, phase := .busy } := rfl
@[simp] theorem issueTransfer_response (h : H) (f : FrameWord) (s : State.Of H E n) :
    (issueTransfer h f s).response = s.response := rfl
@[simp] theorem issueTransfer_resetAsserted (h : H) (f : FrameWord) (s : State.Of H E n) :
    (issueTransfer h f s).resetAsserted = s.resetAsserted := rfl
@[simp] theorem issueTransfer_requesters (h : H) (f : FrameWord) (s : State.Of H E n) :
    (issueTransfer h f s).requesters = s.requesters := rfl
@[simp] theorem issueTransfer_draws (h : H) (f : FrameWord) (s : State.Of H E n) :
    (issueTransfer h f s).draws = s.draws := rfl
@[simp] theorem issueTransfer_trace (h : H) (f : FrameWord) (s : State.Of H E n) :
    (issueTransfer h f s).trace = .transfer h (frameOfWord f) :: s.trace := rfl

@[simp] theorem endTransfer_block (a : TransferAnswer.Of E) (s : State.Of H E n) :
    (endTransfer a s).block = { s.block with tx := none, phase := .idle } := rfl
@[simp] theorem endTransfer_response (a : TransferAnswer.Of E) (s : State.Of H E n) :
    (endTransfer a s).response = s.response := rfl
@[simp] theorem endTransfer_resetAsserted (a : TransferAnswer.Of E) (s : State.Of H E n) :
    (endTransfer a s).resetAsserted = s.resetAsserted := rfl
@[simp] theorem endTransfer_requesters (a : TransferAnswer.Of E) (s : State.Of H E n) :
    (endTransfer a s).requesters = s.requesters := rfl
@[simp] theorem endTransfer_draws (a : TransferAnswer.Of E) (s : State.Of H E n) : (endTransfer a s).draws = s.draws := rfl
@[simp] theorem endTransfer_trace (a : TransferAnswer.Of E) (s : State.Of H E n) :
    (endTransfer a s).trace = .answered a :: s.trace := rfl

end Sys2Proof.Machine
end

