-- ==== Sys2Proof/Laws/Ops.lean ====
section
/-! SUPPORT. Once for each shared operation: everything it can do. Later proofs cite these instead of unfolding it. -/

namespace Sys2Proof.Machine

variable {H E : Type} {n : Nat} {s t : State.Of H E n}

/-! ### Acceptance -/

theorem whenIdle_idle {f : State.Of H E n → Host.Outcome (State.Of H E n) Fault Refusal} (h : s.block.phase = .idle) :
    whenIdle f s = f s := by simp [whenIdle, h]

theorem whenIdle_busy {f : State.Of H E n → Host.Outcome (State.Of H E n) Fault Refusal} (h : s.block.phase = .busy) :
    whenIdle f s = .next s := by simp [whenIdle, h]

/-! ### The issue and the completion of a read -/

/-- All that the issue of a read can answer: the closed check, the range check, the issue. -/
theorem issueRead_next {ch : Int} (h : issueRead ch s = .next t) :
    (s.block.life = .closed ∧ t = respond (.err .transportUnavailable) s) ∨
    (s.block.life = .opened ∧ valid ch = false ∧ t = respond (.err .channelOutOfRange) s) ∨
    (s.block.life = .opened ∧ valid ch = true ∧ ∃ k, s.block.handle = some k ∧
      t = issueTransfer k (frameWord (enc (channelField ch))) s) := by
  unfold issueRead at h
  split at h
  · next hl => exact .inl ⟨hl, by simpa using h.symm⟩
  · next hl =>
    split at h
    · next hv =>
      split at h
      · next k hk => exact .inr (.inr ⟨hl, hv, k, hk, by simpa using h.symm⟩)
      · cases h
    · next hv => exact .inr (.inl ⟨hl, by simpa using hv, by simpa using h.symm⟩)

/-- A read stops only where an Open block holds no handle. -/
theorem issueRead_fault {ch : Int} {f : Fault} (h : issueRead ch s = .fault f) :
    s.block.life = .opened ∧ s.block.handle = none ∧ f = .openWithoutHandle := by
  unfold issueRead at h
  split at h
  · cases h
  · next hl =>
    split at h
    · split at h
      · cases h
      · next hk => exact ⟨hl, hk, by simpa using h.symm⟩
    · cases h

theorem issueRead_not_refused {ch : Int} {r : Refusal} : issueRead ch s ≠ .refused r := by
  unfold issueRead
  split
  · simp
  · split
    · split <;> simp
    · simp

/-- The draw of a completion step, answered or not, changes nothing but `draws`. -/
theorem completeRead_cases [Inhabited E] (s : State.Of H E n) :
    (∃ a d, s.draws.transferAnswer s.block.handle s.block.tx = (some a, d) ∧
      completeRead s = respond (answerResult a) (endTransfer a { s with draws := d })) ∨
    (∃ d, s.draws.transferAnswer s.block.handle s.block.tx = (none, d) ∧
      completeRead s = { s with draws := d }) := by
  unfold completeRead
  rcases h : s.draws.transferAnswer s.block.handle s.block.tx with ⟨_ | a, d⟩
  · exact .inr ⟨d, rfl, by simp⟩
  · exact .inl ⟨a, d, rfl, by simp⟩

/-! ### OPEN and CLOSE -/

/-- The three ways an OPEN on a Closed block ends. -/
theorem openTransport_cases [Inhabited H] [Inhabited E] (cfg : OpenConfig) (s : State.Of H E n) :
    (∃ e, (callOpen cfg s).1 = .err e ∧
      openTransport cfg s = respond (.err .transportUnavailable) (callOpen cfg s).2) ∨
    (∃ h e, (callOpen cfg s).1 = .ok h ∧ (callConfigure h cfg (callOpen cfg s).2).1 = .err e ∧
      openTransport cfg s = respond (.err .transportUnavailable)
        (callClose h (callConfigure h cfg (callOpen cfg s).2).2)) ∨
    (∃ h, (callOpen cfg s).1 = .ok h ∧ (callConfigure h cfg (callOpen cfg s).2).1 = .ok ∧
      openTransport cfg s = respond (.ok .none)
        (acquire h cfg (callConfigure h cfg (callOpen cfg s).2).2)) := by
  unfold openTransport
  rcases ho : callOpen cfg s with ⟨h | e, s1⟩
  · rcases hc : callConfigure h cfg s1 with ⟨_ | e, s2⟩
    · exact .inr (.inr ⟨h, rfl, by simp [hc], by simp [hc]⟩)
    · exact .inr (.inl ⟨h, e, rfl, by simp [hc], by simp [hc]⟩)
  · exact .inl ⟨e, rfl, by simp⟩

theorem closeTransport_next (h : closeTransport s = .next t) :
    (s.block.life = .closed ∧ t = respond (.ok .none) s) ∨
    (s.block.life = .opened ∧ ∃ k, s.block.handle = some k ∧
      t = respond (.ok .none) (release (callClose k s))) := by
  unfold closeTransport at h
  split at h
  · next hl => exact .inl ⟨hl, by simpa using h.symm⟩
  · next hl =>
    split at h
    · next k hk => exact .inr ⟨hl, k, hk, by simpa using h.symm⟩
    · cases h

/-! ### The request port -/

/-- The chosen request is one of those presented. -/
theorem arbitrate_some {ps : List (Nat × Request.Of n)} {d d' : Draws.Of H E} {p : Nat × Request.Of n}
    (h : arbitrate ps d = (some p, d')) : p ∈ ps := by
  unfold arbitrate at h
  split at h
  · simp at h
  · simp at h; simp [h.1]
  · simp only [Prod.mk.injEq] at h
    exact List.mem_of_getElem? h.1

theorem mem_presentedRequests {qs : List (Requester.Of E n)} {k : Nat} {r : Request.Of n}
    (h : (k, r) ∈ presentedRequests qs) :
    ∃ q, qs[k]? = some q ∧ q.waiting = false ∧ q.pending.head? = some r := by
  simp only [presentedRequests, List.mem_filterMap, Option.map_eq_some_iff, Prod.mk.injEq] at h
  obtain ⟨⟨q, j⟩, hq, r', hp, rfl, rfl⟩ := h
  refine ⟨q, List.mem_zipIdx_iff_getElem?.1 hq, ?_⟩
  unfold Requester.Of.presents at hp
  split at hp
  · cases hp
  · next hw => exact ⟨by simpa using hw, hp⟩

/-- All that the request port does when it accepts: one presenting agent's first request leaves it. -/
theorem acceptRequest_some {r : Request.Of n} (h : acceptRequest s = some (r, t)) :
    ∃ k q d, s.requesters[k]? = some q ∧ q.waiting = false ∧ q.pending.head? = some r ∧
      t = { s with
        draws := d
        requesters := s.requesters.modify k Requester.Of.accepted
        trace := .accepted r :: s.trace } := by
  unfold acceptRequest at h
  split at h
  · cases h
  · next k r' d ha =>
    simp only [Option.some.injEq, Prod.mk.injEq] at h
    obtain ⟨rfl, rfl⟩ := h
    obtain ⟨q, hq, hw, hp⟩ := mem_presentedRequests (arbitrate_some ha)
    exact ⟨k, q, d, hq, hw, hp, rfl⟩

/-- Acceptance leaves the block, the response port and the reset input as they are, and is observed. -/
theorem acceptRequest_frame {r : Request.Of n} (h : acceptRequest s = some (r, t)) :
    t.block = s.block ∧ t.response = s.response ∧ t.resetAsserted = s.resetAsserted ∧
      t.trace = .accepted r :: s.trace := by
  obtain ⟨_, _, _, _, _, _, rfl⟩ := acceptRequest_some h
  exact ⟨rfl, rfl, rfl, rfl⟩

/-- A decoded host request is one of three, by its `op`; it is no wire command. -/
theorem decodeRequest_ok {r : Request} {i : Instr} (h : decodeRequest r = .ok i) :
    (requestOp r.word = 1#4 ∧ i = .openReq r.cfg) ∨
    (requestOp r.word = 2#4 ∧ i = .read (requestArg r.word).toInt) ∨
    (requestOp r.word = 3#4 ∧ i = .close) := by
  obtain ⟨e1, e2, e3⟩ := requestOp_cases (requestOp r.word)
  rw [decodeRequest_fields] at h
  split at h <;> simp_all

/-- A decoded frame is a command frame, and gives the wire command of its channel field. -/
theorem decodeCommand_ok {f : FrameWord} {i : Instr} (h : decodeCommand f = .ok i) :
    isCommandFrame f = true ∧ i = .mcp3208SeRead (f.extractLsb' 14 3) := by
  unfold decodeCommand at h
  split at h
  · next hm =>
    simp only [Except.ok.injEq] at h
    exact ⟨by simpa [isCommandFrame, commandMask, commandMatch] using hm, h.symm⟩
  · cases h

theorem decodeCommand_of_isCommandFrame {f : FrameWord} (h : isCommandFrame f = true) :
    decodeCommand f = .ok (.mcp3208SeRead (f.extractLsb' 14 3)) := by
  have hm : f &&& commandMask = commandMatch := by
    simpa [isCommandFrame, commandMask, commandMatch] using h
  simp [decodeCommand, hm]

/-! ### The fetch and the step -/

/-- All that a fetch can answer with a next state. -/
theorem fetch_next {o : Option Instr} (h : fetch s = .next (o, t)) :
    (s.block.phase = .idle ∧ o = none ∧ acceptRequest s = none ∧ t = s) ∨
    (s.block.phase = .idle ∧ ∃ r i, o = some i ∧ acceptRequest s = some (r, t) ∧ decodeRequest r = .ok i) ∨
    (s.block.phase = .busy ∧ t = s ∧ ∃ f, s.block.tx = some f ∧ isCommandFrame f = true ∧
      o = some (.mcp3208SeRead (f.extractLsb' 14 3))) := by
  unfold fetch at h
  split at h
  · next hp =>
    split at h
    · next ha =>
      simp only [Host.Outcome.next.injEq, Prod.mk.injEq] at h
      exact .inl ⟨hp, h.1.symm, ha, h.2.symm⟩
    · next r s' ha =>
      split at h
      · next i hd =>
        simp only [Host.Outcome.next.injEq, Prod.mk.injEq] at h
        obtain ⟨rfl, rfl⟩ := h
        exact .inr (.inl ⟨hp, r, i, rfl, ha, hd⟩)
      · next e _ => cases e <;> simp [stopOn] at h
  · next hp =>
    split at h
    · cases h
    · next f hf =>
      split at h
      · next i hd =>
        simp only [Host.Outcome.next.injEq, Prod.mk.injEq] at h
        obtain ⟨rfl, rfl⟩ := h
        obtain ⟨hc, rfl⟩ := decodeCommand_ok hd
        exact .inr (.inr ⟨hp, rfl, f, hf, hc, rfl⟩)
      · next e _ => cases e <;> simp [stopOn] at h

/-- All that a step can do when it answers a next state, whatever runs its instructions: take a reset, wait for a request,
run an accepted request, or run the command frame in flight. -/
theorem stepWith_next {run : Instr → State.Of H E n → Host.Outcome (State.Of H E n) Fault Refusal}
    (h : stepWith run s = .next t) :
    (s.resetAsserted = true ∧ takeReset s = .next t) ∨
    (s.resetAsserted = false ∧ s.block.phase = .idle ∧ t = clearResponse s) ∨
    (s.resetAsserted = false ∧ s.block.phase = .idle ∧ ∃ r i s',
      acceptRequest (clearResponse s) = some (r, s') ∧ decodeRequest r = .ok i ∧ run i s' = .next t) ∨
    (s.resetAsserted = false ∧ s.block.phase = .busy ∧ ∃ f, s.block.tx = some f ∧ isCommandFrame f = true ∧
      run (.mcp3208SeRead (f.extractLsb' 14 3)) (clearResponse s) = .next t) := by
  unfold stepWith at h
  split at h
  · next hr => exact .inl ⟨hr, h⟩
  · next hr =>
    have hr : s.resetAsserted = false := by simpa using hr
    split at h
    · next i s' hf =>
      rcases fetch_next hf with ⟨_, ho, _⟩ | ⟨hp, r, j, ho, ha, hd⟩ | ⟨hp, rfl, f, hx, hc, ho⟩
      · cases ho
      · cases ho; exact .inr (.inr (.inl ⟨hr, hp, r, i, s', ha, hd, h⟩))
      · cases ho; exact .inr (.inr (.inr ⟨hr, hp, f, hx, hc, h⟩))
    · next s' hf =>
      rcases fetch_next hf with ⟨hp, _, _, rfl⟩ | ⟨_, _, _, ho, _⟩ | ⟨_, _, _, _, _, ho⟩
      · exact .inr (.inl ⟨hr, hp, by simpa using h.symm⟩)
      · cases ho
      · cases ho
    · cases h
    · cases h

theorem takeReset_next (h : takeReset s = .next t) :
    s.block.life = .closed ∧ s.block.phase = .idle ∧
      t = { s with block := Block.reset, response := none, resetAsserted := false } := by
  unfold takeReset at h
  split at h
  · cases h
  · next hn =>
    rw [not_or] at hn
    refine ⟨?_, ?_, by simpa using h.symm⟩
    · cases hl : s.block.life with
      | closed => rfl
      | opened => exact absurd hl hn.1
    · cases hp : s.block.phase with
      | idle => rfl
      | busy => exact absurd hp hn.2

/-! ### The fixed machine -/

/-- All that a host request can do on an Idle block when it answers a next state. -/
theorem exec_request_next {s t : State} {r : Request} {i : Instr} (hp : s.block.phase = .idle)
    (hd : decodeRequest r = .ok i) (h : exec i s = .next t) :
    (∃ cfg, i = .openReq cfg ∧ s.block.life = .closed ∧ t = openTransport cfg s) ∨
    (∃ ch, i = .read ch ∧ issueRead ch s = .next t) ∨
    (i = .close ∧ closeTransport s = .next t) := by
  rcases decodeRequest_ok hd with ⟨_, rfl⟩ | ⟨_, rfl⟩ | ⟨_, rfl⟩
  · simp only [exec, execOpenReq, whenIdle_idle hp] at h
    split at h
    · cases h
    · next hl => exact .inl ⟨_, rfl, hl, by simpa using h.symm⟩
  · exact .inr (.inl ⟨_, rfl, by simpa only [exec, execRead, whenIdle_idle hp] using h⟩)
  · exact .inr (.inr ⟨rfl, by simpa only [exec, execClose, whenIdle_idle hp] using h⟩)

/-- `stepWith_next` of `step`; in PHASE Busy it carries the exchange in flight on. -/
theorem step_next {s t : State} (h : step s = .next t) :
    (s.resetAsserted = true ∧ takeReset s = .next t) ∨
    (s.resetAsserted = false ∧ s.block.phase = .idle ∧ t = clearResponse s) ∨
    (s.resetAsserted = false ∧ s.block.phase = .idle ∧ ∃ r i s',
      acceptRequest (clearResponse s) = some (r, s') ∧ decodeRequest r = .ok i ∧ exec i s' = .next t) ∨
    (s.resetAsserted = false ∧ s.block.phase = .busy ∧ t = completeRead (clearResponse s) ∧
      ∃ f, s.block.tx = some f ∧ isCommandFrame f = true) := by
  rcases stepWith_next h with h | h | h | ⟨hr, hp, f, hx, hc, h⟩
  · exact .inl h
  · exact .inr (.inl h)
  · exact .inr (.inr (.inl h))
  · exact .inr (.inr (.inr ⟨hr, hp, by simpa [exec, execMcp3208SeRead, hp] using h.symm, f, hx, hc⟩))

theorem run_zero (s : State) : run 0 s = .next s := rfl

/-- A run whose first step answers a next state goes on from there. -/
theorem run_succ {s t : State} {n : Nat} (h : step s = .next t) : run (n + 1) s = run n t := by
  have h' : Sys2Proof.core.step s = .next t := h
  simp only [run, Host.Core.run, h']
  rfl

/-! ### The machine at any parameters (R7) -/

theorem exec_eq_execAt (i : Instr) (s : State) : exec i s = execAt i s := by cases i <;> rfl

/-- The fixed machine is the machine at Config's arguments. -/
theorem step_eq_stepAt (s : State) : step s = stepAt s := by
  have h : (exec : Instr → State → _) = execAt := funext fun i => funext (exec_eq_execAt i)
  rw [step, stepAt, h]

theorem core_eq_machineAt : Sys2Proof.core = machineAt Handle TErr Config.chW := by
  have h : step = stepAt := funext step_eq_stepAt
  rw [core, machineAt, h]
  rfl

end Sys2Proof.Machine
end

