-- ==== Sys2Proof/Laws/PerInstr.lean ====
section
/-! SUPPORT. The per-instruction family MatchesTable: the words of an instruction match its row of
spec/opcode_table.json ("match" and "mask"). -/

open Sys2Proof

/-- The encoded word has the row's fixed bits, in the row's format. -/
def Sys2Proof.Laws.MatchesTable.Statement (i : Instr) : Prop :=
  match i, encode i with
  | .openReq _, .hreq36 r => r.word &&& 0xF00000000#36 = 0x100000000#36
  | .read _, .hreq36 r => r.word &&& 0xF00000000#36 = 0x200000000#36
  | .close, .hreq36 r => r.word &&& 0xF00000000#36 = 0x300000000#36
  | .mcp3208SeRead _, .cmd24 f => f &&& 0xFE3FFF#24 = 0x060000#24
  | _, _ => False

theorem Sys2Proof.Laws.MatchesTable.openReq (cfg : OpenConfig) : Statement (.openReq cfg) := by
  show requestWord 1#4 0#32 &&& 0xF00000000#36 = 0x100000000#36
  decide

theorem Sys2Proof.Laws.MatchesTable.read (ch : Int) : Statement (.read ch) := by
  show requestWord 2#4 (BitVec.ofInt 32 ch) &&& 0xF00000000#36 = 0x200000000#36
  apply BitVec.eq_of_getLsbD_eq
  intro i hi
  have high : ∀ j < 36, (0xF00000000#36).getLsbD j = decide (32 ≤ j) := by decide
  have low : ∀ j < 36, (0x200000000#36).getLsbD j = decide (j = 33) := by decide
  rw [BitVec.getLsbD_and, Machine.requestWord_getLsbD, high i hi, low i hi]
  by_cases h : i < 32
  · simp [show ¬ 32 ≤ i by omega, show i ≠ 33 by omega]
  · have : i = 32 ∨ i = 33 ∨ i = 34 ∨ i = 35 := by omega
    rcases this with rfl | rfl | rfl | rfl <;> simp

theorem Sys2Proof.Laws.MatchesTable.close : Statement .close := by
  show requestWord 3#4 0#32 &&& 0xF00000000#36 = 0x300000000#36
  decide

theorem Sys2Proof.Laws.MatchesTable.mcp3208SeRead (c : ChannelField) : Statement (.mcp3208SeRead c) := by
  show commandWord c &&& 0xFE3FFF#24 = 0x060000#24
  revert c
  decide
end

