-- ==== Sys2Proof/Tests/Slice0.lean ====
section
/-! SUPPORT. The model's own tests. Expected values come from spec/95_test_vectors.md and the encoding tables of
spec/30_encoding.md, named at each test. The second half shows, for each statement with hypotheses, a concrete state and
operands that meet them. -/

namespace Sys2Proof.Tests

open Sys2Proof Sys2Proof.Machine

/-! ### Well-formedness: the one check refuses ill-formed terms (R49) -/

theorem test_wf_read_too_large : (Instr.read 2147483648).wf = false := by decide
theorem test_wf_read_too_small : (Instr.read (-2147483649)).wf = false := by decide
theorem test_wf_read_bounds :
    (Instr.read 2147483647).wf = true ∧ (Instr.read (-2147483648)).wf = true := by decide

/-! ### Decoding: words written out from R39, R43, R44, one for each constructor -/

/-- op 0x1, arg 0. -/
theorem test_decode_open : decodeTableWord 40 0b000100000000000000000000000000000000 = some (.openReq ⟨0, 0, 0⟩) := by
  decide
/-- op 0x2, arg 0xFFFFFFFF = -1 (vector V-E5). -/
theorem test_decode_read : decodeTableWord 40 0b001011111111111111111111111111111111 = some (.read (-1)) := by decide
/-- op 0x3, arg 5, ignored (vector V-L10). -/
theorem test_decode_close : decodeTableWord 40 0b001100000000000000000000000000000101 = some .close := by decide
/-- leading zeros, START, SGL/DIFF, D2 D1 D0 = 101, don't-care, dummy (R39; V-ENC5). -/
theorem test_decode_se_read : decodeTableWord 24 0b000001110100000000000000 = some (.mcp3208SeRead 5#3) := by decide
/-- Reserved request codes (V-L8, V-L9) and frames that are no command (V-ENC8 to V-ENC11). -/
theorem test_decode_rejects :
    decodeRequest ⟨0x000000000#36, noConfig⟩ = .error (.reservedRequest 0#4) ∧
    decodeRequest ⟨0xF00000000#36, noConfig⟩ = .error (.reservedRequest 15#4) ∧
    decodeCommand 0x000000#24 = .error (.notACommandFrame 0x000000#24) ∧
    decodeCommand 0x064100#24 = .error (.notACommandFrame 0x064100#24) ∧
    decodeCommand 0x04C000#24 = .error (.notACommandFrame 0x04C000#24) ∧
    decodeCommand 0x06C001#24 = .error (.notACommandFrame 0x06C001#24) := by decide

/-- V-VAL1 to V-VAL9. -/
theorem test_valid :
    valid 0 = true ∧ valid 7 = true ∧ valid 3 = true ∧ valid (-1) = false ∧ valid 8 = false ∧ valid 255 = false ∧
    valid (-2147483648) = false ∧ valid 2147483647 = false ∧ valid (-8) = false := by decide

/-- V-ENC0 to V-ENC7 (the table of R58). -/
theorem test_enc :
    [0, 1, 2, 3, 4, 5, 6, 7].map (fun ch => enc (channelField ch)) =
      [⟨0x06#8, 0x00#8, 0x00#8⟩, ⟨0x06#8, 0x40#8, 0x00#8⟩, ⟨0x06#8, 0x80#8, 0x00#8⟩, ⟨0x06#8, 0xC0#8, 0x00#8⟩,
        ⟨0x07#8, 0x00#8, 0x00#8⟩, ⟨0x07#8, 0x40#8, 0x00#8⟩, ⟨0x07#8, 0x80#8, 0x00#8⟩,
        ⟨0x07#8, 0xC0#8, 0x00#8⟩] := by decide

/-- V-DEC1, V-DEC4, V-DEC5, V-DEC7, V-DEC9 to V-DEC12. -/
theorem test_dec :
    (dec ⟨0x00#8, 0x0A#8, 0x3C#8⟩).toNat = 2620 ∧ (dec ⟨0xFF#8, 0xFF#8, 0xFF#8⟩).toNat = 4095 ∧
    (dec ⟨0xFF#8, 0xF0#8, 0x00#8⟩).toNat = 0 ∧ (dec ⟨0x00#8, 0x01#8, 0x00#8⟩).toNat = 256 ∧
    (dec ⟨0x00#8, 0x08#8, 0x00#8⟩).toNat = 2048 ∧ (dec ⟨0x00#8, 0x07#8, 0xFF#8⟩).toNat = 2047 ∧
    (dec ⟨0xA5#8, 0x5A#8, 0xC3#8⟩).toNat = 2755 ∧ (dec ⟨0x12#8, 0xE3#8, 0x4D#8⟩).toNat = 845 := by decide

/-- The bit-serial order of ENC(5), section 2.2 of 95_test_vectors.md. -/
theorem test_wire_bits :
    wireBits (enc 5#3) = [false, false, false, false, false, true, true, true, false, true, false, false, false, false,
      false, false, false, false, false, false, false, false, false, false] := by decide

/-- Lines of programs P1 and P2. -/
theorem test_assemble :
    parseLine "OPEN  bus=0, dev=1, speed=500000      ; 0x100000000  cfg=".toList =
      .ok (some (.openReq ⟨0, 1, 500000⟩)) ∧
    assembleLine "READ  -1                              ; 0x2FFFFFFFF".toList =
      .ok (some (.hreq36 ⟨0x2FFFFFFFF#36, noConfig⟩)) ∧
    assembleLine "CLOSE".toList = .ok (some (.hreq36 ⟨0x300000000#36, noConfig⟩)) ∧
    parseLine "READ  2147483648".toList = .error .operandOutOfRange := by decide

/-! ### Small states -/

/-- The configuration of vector V-L1. -/
def cfg0 : OpenConfig := ⟨0, 0, 1000000⟩

/-- Open(h0), after V-L1. -/
def openBlock : Block := ⟨.opened, some ⟨0⟩, some cfg0, .idle, none⟩

/-- READ 3 in flight: the intermediate state of V-E3. -/
def busyBlock : Block := { openBlock with phase := .busy, tx := some 0x06C000#24 }

/-- What V-L1 shows outside. -/
def openTrace : List Event :=
  [.respond (.ok .none), .tConfigure ⟨0⟩ 1000000 0 .msbFirst .ok, .tOpen 0 0 (.ok ⟨0⟩),
    .accepted ⟨0x100000000#36, cfg0⟩]

/-- A Closed block with one requester. -/
def closedWith (pending : List Request) : State :=
  { State.reset with requesters := [⟨pending, false, []⟩] }

/-- An Open, Idle block with one requester. -/
def openWith (pending : List Request) : State :=
  { State.reset with block := openBlock, requesters := [⟨pending, false, []⟩], trace := openTrace }

/-- A Busy block whose reader waits. -/
def busyWith (answers : List (Option TransferAnswer)) (pending : List Request) : State :=
  { State.reset with
    block := busyBlock
    requesters := [⟨[], true, []⟩, ⟨pending, false, []⟩]
    draws := { Draws.reset with transfer := answers }
    trace := .transfer ⟨0⟩ ⟨0x06#8, 0xC0#8, 0x00#8⟩ :: .accepted ⟨0x200000003#36, noConfig⟩ :: openTrace }

/-- A request word with nothing on the side-band. -/
def word (w : RequestWord) : Request := ⟨w, noConfig⟩

/-- A state whose Transport answers these to TOpen and TConfigure. -/
def answering (o : List OpenAnswer) (c : List ConfigureAnswer) (s : State) : State :=
  { s with draws := { s.draws with tOpen := o, tConfigure := c } }

/-- What a step shows of the block and of the result. -/
def seen : Host.Outcome State Fault Refusal → Option (Block × Option Result)
  | .next s => some (s.block, s.response)
  | _ => none

/-- Whether an outcome is this refusal. -/
def refuses (why : Refusal) : Host.Outcome State Fault Refusal → Bool
  | .refused r => decide (r = why)
  | _ => false

/-! ### One step -/

/-- V-L1. -/
theorem test_open_ok :
    seen (step (answering [.ok ⟨0⟩] [.ok] (closedWith [⟨0x100000000#36, cfg0⟩]))) =
      some (openBlock, some (.ok .none)) := by decide

/-- V-L3: configure fails, the handle is released. -/
theorem test_open_configure_fails :
    (match step (answering [.ok ⟨0⟩] [.err ⟨4⟩] (closedWith [⟨0x100000000#36, ⟨0, 0, 0⟩⟩])) with
      | .next s => decide (s.block = Block.reset) && decide (s.trace.head? = some (.respond (.err .transportUnavailable)))
          && decide (s.trace[1]? = some (.tClose ⟨0⟩))
      | _ => false) = true := by decide

/-- V-L6. -/
theorem test_open_on_open_refused : refuses .openWhileOpen (step (openWith [⟨0x100000000#36, cfg0⟩])) = true := by
  decide

/-- V-E3, issue step. -/
theorem test_read_issue : seen (step (openWith [word 0x200000003#36])) = some (busyBlock, none) := by decide

/-- V-E9: an invalid channel on a Closed block (D6). -/
theorem test_read_invalid_on_closed :
    seen (step (closedWith [word 0x200000008#36])) = some (Block.reset, some (.err .transportUnavailable)) := by decide

/-- V-E3, completion step. -/
theorem test_read_completion :
    seen (step (busyWith [some (.ok [0x00#8, 0x0A#8, 0x3C#8])] [])) =
      some (openBlock, some (.ok (.sample 2620#12))) := by decide

/-- V-E12: CLOSE is held while READ is in flight. -/
theorem test_close_held :
    seen (step (busyWith [none] [word 0x300000000#36])) = some (busyBlock, none) := by decide

/-- V-L10. -/
theorem test_close_on_closed :
    seen (step (closedWith [word 0x300000005#36])) = some (Block.reset, some (.ok .none)) := by decide

/-- V-L4. -/
theorem test_close_on_open :
    seen (step (openWith [word 0x300000000#36])) = some (Block.reset, some (.ok .none)) := by decide

/-- V-L8, V-L9. -/
theorem test_reserved_refused :
    refuses (.reservedRequest 0#4) (step (openWith [word 0x000000000#36])) = true ∧
    refuses (.reservedRequest 15#4) (step (closedWith [word 0xF00000000#36])) = true := by decide

/-- A machine of CH_W 4, with other types of handles and of transport errors: Open, and READ 5 presented in the 8-bit word
op 0x2, arg 0x5 (R7, R43). -/
def narrowOpen : State.Of Bool Nat 4 :=
  { State.resetAt Bool Nat 4 with
    block := ⟨.opened, some true, some cfg0, .idle, none⟩
    requesters := [⟨[⟨0x25#8, noConfig⟩], false, []⟩] }

/-- V-ENC5's frame, from that word. -/
theorem test_other_parameters :
    (match stepAt narrowOpen with
      | .next s => decide (s.block.tx = some 0x074000#24) && decide (s.trace.head? = some (.transfer true (enc 5#3)))
      | _ => false) = true := by decide

/-- The table words run as the first step after reset. -/
theorem test_first_step :
    seen (step (State.reset.withFetchWord 40 0x200000003)) =
      some (Block.reset, some (.err .transportUnavailable)) ∧
    seen (step (State.reset.withFetchWord 40 0x300000000)) = some (Block.reset, some (.ok .none)) := by decide

/-! ### Witnesses: the hypotheses of the statements can be met -/

theorem witness_DecodeInvertsEncode : (Instr.read (-2147483648)).wf = true := by decide

theorem witness_EncodeRestoresTheDecodedWord :
    decode (.cmd24 0x07C000#24) = .ok (.mcp3208SeRead 7#3) ∧
    (decode (.hreq36 ⟨0x1FFFFFFFF#36, cfg0⟩) = .ok (.openReq cfg0) ∧ requestOp 0x1FFFFFFFF#36 = 1#4) ∧
    (decode (.hreq36 (word 0x280000000#36)) = .ok (.read (-2147483648)) ∧ requestOp 0x280000000#36 = 2#4) ∧
    (decode (.hreq36 (word 0x300000005#36)) = .ok .close ∧ requestOp 0x300000005#36 ≠ 2#4) := by decide

theorem witness_RequestFieldsAtEveryOperandWidth :
    0 < 1 ∧ operandFitsAt 1 (-1) = true ∧ operandFitsAt 4 7 = true ∧ operandFitsAt 64 (-1) = true ∧
    narrowOpen.resetAsserted = false ∧ narrowOpen.block.phase = .idle ∧
    narrowOpen.requesters = [⟨[⟨requestWordAt 4 2#4 (BitVec.ofInt 4 5), noConfig⟩], false, []⟩] := by decide

theorem witness_AssembledLinesDecodeBack :
    assembleLine "READ 7".toList = .ok (some (.hreq36 ⟨0x200000007#36, noConfig⟩)) := by decide

theorem witness_ChannelValidity : valid 0 = true ∧ valid 7 = true := by decide

theorem witness_ChannelRecovery : isCommandFrame 0x07C000#24 = true ∧ isCommandFrame 0x060000#24 = true := by decide

theorem witness_EncoderInjective :
    valid 7 = true ∧ enc (channelField 7) = enc (channelField 7) := ⟨by decide, rfl⟩

/-- EncoderByteFormulas, EncoderWordForm, EverySampleComesFromFourThousandFrames, FullDuplexBitPairing,
SerialOrderOfOneExchange: the last value of each range. -/
theorem witness_bounds :
    (7 ≤ 7 ∧ 4095 ≤ 4095 ∧ 23 < 24 ∧ 11 < 12) := by decide

/-- ReadOnClosedBlock, CloseOnClosedBlock, WireCommandEmission (second clause). -/
theorem witness_closed_idle : State.reset.block.phase = .idle ∧ State.reset.block.life = .closed := by decide

/-- ReadOutOfRange, ReadIssuesOneTransfer, OpenOnOpenBlockRefused, CloseReleasesTheHandle, WireCommandEmission. -/
theorem witness_open_idle :
    (openWith []).block.phase = .idle ∧ (openWith []).block.life = .opened ∧
    (openWith []).block.handle = some ⟨0⟩ ∧ ((-1 : Int) < 0 ∨ (-1 : Int) > 7) ∧ ((8 : Int) < 0 ∨ (8 : Int) > 7) ∧
    (0 : Int) ≤ 7 ∧ (7 : Int) ≤ 7 := by decide

/-- ReadCompletesWithItsSample, TransferErrorFailsTheRead with its later READ, UnansweredTransferStaysBusy,
WrongLengthAnswerFailsTheRead: one answer each. -/
theorem witness_busy_answers :
    busyBlock.phase = .busy ∧ busyBlock.life = .opened ∧ busyBlock.handle = some ⟨0⟩ ∧
    ((busyWith [some (.ok [0#8, 0#8, 0#8])] []).draws.transferAnswer busyBlock.handle busyBlock.tx).1 =
      some (.ok [0#8, 0#8, 0#8]) ∧
    ((busyWith [some (.err ⟨1⟩)] []).draws.transferAnswer busyBlock.handle busyBlock.tx).1 = some (.err ⟨1⟩) ∧
    ((busyWith [some (.ok [0#8, 0#8])] []).draws.transferAnswer busyBlock.handle busyBlock.tx).1 =
      some (.ok [0#8, 0#8]) ∧ [0#8, 0#8].length ≠ 3 ∧
    ((busyWith [none] []).draws.transferAnswer busyBlock.handle busyBlock.tx).1 = none := by decide

theorem witness_OpenAcquiresTheHandle :
    ∃ d d', (answering [.ok ⟨0⟩] [.ok] State.reset).draws.openAnswer 0 0 = (.ok ⟨0⟩, d) ∧
      d.configureAnswer ⟨0⟩ 1000000 = (.ok, d') ∧
      (answering [.ok ⟨0⟩] [.ok] State.reset).block = Block.reset := ⟨_, _, rfl, rfl, rfl⟩

theorem witness_OpenFailureLeavesTheBlockClosed :
    (∃ d, (answering [.err ⟨3⟩] [] State.reset).draws.openAnswer 9 9 = (.err ⟨3⟩, d)) ∧
    ∃ d d', (answering [.ok ⟨0⟩] [.err ⟨4⟩] State.reset).draws.openAnswer 0 0 = (.ok ⟨0⟩, d) ∧
      d.configureAnswer ⟨0⟩ 0 = (.err ⟨4⟩, d') := ⟨⟨_, rfl⟩, _, _, rfl, rfl⟩

/-- RequestsAreHeldWhileBusy, StepRunsTheCommandInFlight. -/
theorem witness_busy :
    (busyWith [] []).block.phase = .busy ∧ (busyWith [] []).resetAsserted = false ∧
    (busyWith [] []).block.tx = some 0x06C000#24 ∧ isCommandFrame 0x06C000#24 = true := by decide

theorem witness_ResultReachesTheWaitingAgent :
    (⟨[], true, []⟩ : Requester).waiting = true ∧ (⟨[], false, []⟩ : Requester).waiting = false := by decide

theorem witness_StatesAgainstTheInvariantsFault :
    (∃ s : State, s.block.phase = .idle ∧ s.block.life = .opened ∧ s.block.handle = none) ∧
    (∃ s : State, s.resetAsserted = false ∧ s.block.phase = .busy ∧ s.block.tx = none) ∧
    ∃ s : State, s.resetAsserted = false ∧ s.block.phase = .busy ∧ s.block.tx = some 0#24 ∧
      isCommandFrame 0#24 = false :=
  ⟨⟨{ State.reset with block := ⟨.opened, none, none, .idle, none⟩ }, rfl, rfl, rfl⟩,
    ⟨{ State.reset with block := ⟨.opened, none, none, .busy, none⟩ }, rfl, rfl, rfl⟩,
    { State.reset with block := ⟨.opened, none, none, .busy, some 0#24⟩ }, rfl, rfl, rfl, by decide⟩

theorem witness_StepRunsTheAcceptedRequest :
    (∃ t, acceptRequest { openWith [word 0x300000000#36] with response := none } =
      some (word 0x300000000#36, t)) ∧
    decodeRequest (word 0x300000000#36) = .ok .close ∧
    (openWith [word 0x300000000#36]).requesters = [⟨[word 0x300000000#36], false, []⟩] ∧
    (openWith [word 0x300000000#36]).resetAsserted = false := ⟨⟨_, rfl⟩, by decide, rfl, rfl⟩

theorem witness_ReservedRequestRefused :
    requestOp (word 0x400000000#36).word ≠ 1#4 ∧ requestOp (word 0x400000000#36).word ≠ 2#4 ∧
    requestOp (word 0x400000000#36).word ≠ 3#4 ∧
    (openWith [word 0x400000000#36]).requesters = [⟨[word 0x400000000#36], false, []⟩] := by decide

/-- IdleBlockWaitsForARequest, EndedRunStaysEnded. -/
theorem witness_ended : (openWith []).resetAsserted = false ∧ (openWith []).Ended := by decide

/-- WarmResetRefused, ResetWhileClosedAndIdle. -/
theorem witness_reset_input :
    { openWith [] with resetAsserted := true }.block.life = .opened ∧
    { busyWith [] [] with resetAsserted := true }.block.phase = .busy ∧
    { closedWith [] with resetAsserted := true }.block = Block.reset := by decide

theorem witness_ArbitrationAdmitsEveryOrder :
    (∃ s : State, s.requesters[1]? = some ⟨[word 0x300000000#36], false, []⟩ ∧ s.requesters.length = 2 ∧
      ∃ q ∈ s.requesters, q.waiting = false ∧ q.pending ≠ []) ∧
    ∀ q ∈ (openWith []).requesters, q.waiting = true ∨ q.pending = [] :=
  ⟨⟨{ openWith [] with
      requesters := [⟨[word 0x200000002#36], false, []⟩, ⟨[word 0x300000000#36], false, []⟩] }, rfl, rfl,
      _, List.mem_cons_self, rfl, List.cons_ne_nil _ _⟩, by decide⟩

/-- HeldRequestsStayAtThePort, PhaseChangesOnlyByReadAndAnswer (first clause), StepKeeps…, TraceOnlyGrows. -/
theorem witness_busy_step :
    ∃ t, step (busyWith [some (.ok [0#8, 0#8, 0#8])] []) = .next t ∧ t.block.phase = .idle ∧
      (busyWith [some (.ok [0#8, 0#8, 0#8])] []).block.phase = .busy := ⟨_, rfl, rfl, rfl⟩

/-- PhaseChangesOnlyByReadAndAnswer (second clause). -/
theorem witness_issue_step :
    ∃ t, step (openWith [word 0x200000003#36]) = .next t ∧ t.block.phase = .busy := ⟨_, rfl, rfl⟩

theorem witness_OnlyOpenAndCloseWriteTheLifecycle :
    ∃ t, step (openWith [word 0x300000000#36]) = .next t ∧
      t.block.life ≠ (openWith [word 0x300000000#36]).block.life := ⟨_, rfl, by decide⟩

theorem witness_ErrorsLeaveTheBlockUnchanged :
    (∃ t, step (openWith [word 0x200000008#36]) = .next t ∧ t.response = some (.err .channelOutOfRange)) ∧
    ∃ t, step (busyWith [some (.err ⟨1⟩)] []) = .next t ∧ t.response = some (.err (.transferFailed ⟨1⟩)) :=
  ⟨⟨_, rfl, rfl⟩, _, rfl, rfl⟩

theorem witness_SilentTransportHangsTheBlock :
    (busyWith [none, none] []).block.Wf ∧
    (busyWith [none, none] []).draws.transfer = List.replicate (1 + 1) none ++ [] := by decide

/-- Two READs of an Open block, channels 0 and 7, and their two answers. -/
def twoReads : State :=
  { openWith [word 0x200000000#36, word 0x200000007#36] with
    draws := { Draws.reset with transfer := [some (.ok [0#8, 0#8, 0#8]), some (.ok [0#8, 0#8, 0#8])] } }

theorem witness_RepeatedReadsGiveTheSameSample :
    (∀ ch ∈ [(0 : Int), 7], 0 ≤ ch ∧ ch ≤ 7) ∧ twoReads.block.Wf ∧ twoReads.block.handle = some ⟨0⟩ ∧
    twoReads.block.phase = .idle ∧ twoReads.resetAsserted = false ∧
    twoReads.requesters =
      [⟨[(0 : Int), 7].map (fun ch => ⟨requestWord 2#4 (BitVec.ofInt 32 ch), noConfig⟩), false, []⟩] ∧
    twoReads.draws.transfer = List.replicate 2 (some (.ok [0#8, 0#8, 0#8])) ++ [] := by decide

theorem witness_ReadsOfAClosedBlockAllFail :
    (∀ r ∈ [word 0x200000003#36, word 0x200000008#36], requestOp r.word = 2#4) ∧
    (closedWith [word 0x200000003#36, word 0x200000008#36]).block = Block.reset ∧
    (closedWith [word 0x200000003#36, word 0x200000008#36]).resetAsserted = false ∧
    (closedWith [word 0x200000003#36, word 0x200000008#36]).requesters =
      [⟨[word 0x200000003#36, word 0x200000008#36], false, []⟩] := by decide

/-- The hypotheses of the five invariants meet in a Busy state that steps. -/
theorem witness_invariants :
    (busyWith [none] []).block.Wf ∧ (busyWith [none] []).Serial ∧ (busyWith [none] []).OneWaits ∧
    transfersProper (busyWith [none] []).trace = true ∧
    configuredSpeed ⟨0⟩ (busyWith [none] []).trace = some 1000000 := by decide

theorem witness_ConfiguredLedger : (busyWith [none] []).ConfiguredLedger := by
  refine ⟨?_, by decide⟩
  intro h cfg hh hc
  cases hh; cases hc; decide

theorem witness_ReleaseLedger : (busyWith [none] []).ReleaseLedger := by
  intro h
  simp [busyWith, openTrace, busyBlock, openBlock, timesReleased, timesReturned, timesHeld]

theorem witness_StepDependsOnNoHistory :
    (openWith []).live = State.Of.live { openWith [] with trace := [], response := some (.ok .none) } := by decide

theorem witness_StepStopsOnlyWhereTheSpecRefuses :
    (openWith [⟨0x100000000#36, cfg0⟩]).block.Wf ∧
    refuses .openWhileOpen (step (openWith [⟨0x100000000#36, cfg0⟩])) = true := by decide

end Sys2Proof.Tests
end

namespace Sys2Proof.Machine

/-! ## The state's invariants under a step

`step_next` says what a step can do; each invariant below is one lemma for each operation that writes what the invariant
reads, put together along that case distinction. -/

/-! ### The block's record: `Wf` -/

section

variable {H E : Type} {n : Nat} {s t : State.Of H E n}

/-- The encoder emits command frames only (R48, R54). -/
@[simp] theorem isCommandFrame_frameWord_enc (c : ChannelField) : isCommandFrame (frameWord (enc c)) = true := by
  revert c; decide

theorem wf_reset : (Block.reset : Block.Of H).Wf := by simp [Block.Of.Wf, Block.reset]

theorem acquire_keeps_wf (h : H) (cfg : OpenConfig) (hw : s.block.Wf) : (acquire h cfg s).block.Wf := by
  obtain ⟨-, -, htx, -, hframe⟩ := hw
  simp [Block.Of.Wf, htx, hframe]

/-- CLOSE needs PHASE Idle: only an Open block may be Busy. -/
theorem release_keeps_wf (hp : s.block.phase = .idle) (hw : s.block.Wf) : (release s).block.Wf := by
  obtain ⟨-, -, htx, -, hframe⟩ := hw
  simp [Block.Of.Wf, htx, hp, hframe]

theorem issueTransfer_keeps_wf {f : FrameWord} (h : H) (hl : s.block.life = .opened) (hf : isCommandFrame f = true)
    (hw : s.block.Wf) : (issueTransfer h f s).block.Wf := by
  obtain ⟨hhandle, hcfg, -, -, -⟩ := hw
  simp [Block.Of.Wf, hhandle, hcfg, hl, hf]

theorem endTransfer_keeps_wf (a : TransferAnswer.Of E) (hw : s.block.Wf) : (endTransfer a s).block.Wf := by
  obtain ⟨hhandle, hcfg, -, -, -⟩ := hw
  simp [Block.Of.Wf, hhandle, hcfg]

theorem openTransport_keeps_wf [Inhabited H] [Inhabited E] (cfg : OpenConfig) (hw : s.block.Wf) :
    (openTransport cfg s).block.Wf := by
  rcases openTransport_cases cfg s with ⟨e, -, ht⟩ | ⟨h, e, -, -, ht⟩ | ⟨h, -, -, ht⟩ <;> rw [ht, respond_block]
  · exact hw
  · exact hw
  · exact acquire_keeps_wf h cfg hw

theorem issueRead_keeps_wf {ch : Int} (hw : s.block.Wf) (h : issueRead ch s = .next t) : t.block.Wf := by
  rcases issueRead_next h with ⟨-, rfl⟩ | ⟨-, -, rfl⟩ | ⟨hl, -, k, -, rfl⟩
  · exact hw
  · exact hw
  · exact issueTransfer_keeps_wf k hl (isCommandFrame_frameWord_enc _) hw

theorem closeTransport_keeps_wf (hp : s.block.phase = .idle) (hw : s.block.Wf) (h : closeTransport s = .next t) :
    t.block.Wf := by
  rcases closeTransport_next h with ⟨-, rfl⟩ | ⟨-, k, -, rfl⟩
  · exact hw
  · exact release_keeps_wf (s := callClose k s) hp hw

theorem completeRead_keeps_wf [Inhabited E] (hw : s.block.Wf) : (completeRead s).block.Wf := by
  rcases completeRead_cases s with ⟨a, d, -, ht⟩ | ⟨d, -, ht⟩ <;> rw [ht]
  · exact endTransfer_keeps_wf (s := { s with draws := d }) a hw
  · exact hw

end

/-- An accepted host request, run on an Idle block. -/
theorem exec_request_keeps_wf {s t : State} {r : Request} {i : Instr} (hp : s.block.phase = .idle) (hw : s.block.Wf)
    (hd : decodeRequest r = .ok i) (h : exec i s = .next t) : t.block.Wf := by
  rcases exec_request_next hp hd h with ⟨cfg, -, -, rfl⟩ | ⟨ch, -, hread⟩ | ⟨-, hclose⟩
  · exact openTransport_keeps_wf cfg hw
  · exact issueRead_keeps_wf hw hread
  · exact closeTransport_keeps_wf hp hw hclose

/-- Settles O52: each operation that writes the block keeps `Wf`, along the cases of `step_next`. -/
theorem stepKeepsTheBlockInvariants : Obligations.StepKeepsTheBlockInvariants := by
  intro s t hw h
  rcases step_next h with ⟨-, hreset⟩ | ⟨-, -, rfl⟩ | ⟨-, hp, r, i, u, ha, hd, hrun⟩ | ⟨-, -, rfl, -⟩
  · obtain ⟨-, -, rfl⟩ := takeReset_next hreset
    exact wf_reset
  · exact hw
  · have hu : u.block = s.block := (acceptRequest_frame ha).1
    exact exec_request_keeps_wf (by rw [hu, hp]) (by rw [hu]; exact hw) hd hrun
  · exact completeRead_keeps_wf (s := clearResponse s) hw

/-! ### One exchange and one request at a time: `Serial`

Between the acceptance of a request and its result the block is Idle with a request outstanding, so `Serial` does not hold
there; `AwaitsResult` says what does. Acceptance and the end of a Transfer lead into it, the result and the issue of a
Transfer lead out of it. -/

section

variable {H E : Type} {n : Nat} {s t : State.Of H E n}

/-- A request is outstanding on an Idle block and no Transfer is in flight: where OPEN, READ's issue and CLOSE start, and
where the end of a Transfer leaves a READ (R64). -/
structure State.Of.AwaitsResult (s : State.Of H E n) : Prop where
  idle : s.block.phase = .idle
  noTransfer : transferInFlight s.trace = some false
  outstanding : requestOutstanding s.trace = some true

theorem serial_of_idle (hp : s.block.phase = .idle) (ht : transferInFlight s.trace = some false)
    (hr : requestOutstanding s.trace = some false) : s.Serial := by
  simp [State.Of.Serial, hp, ht, hr]

theorem serial_of_busy (hp : s.block.phase = .busy) (ht : transferInFlight s.trace = some true)
    (hr : requestOutstanding s.trace = some true) : s.Serial := by
  simp [State.Of.Serial, hp, ht, hr]

/-- R23, R65: the next request is accepted only after the result of the one before. -/
theorem acceptRequest_awaitsResult {r : Request.Of n} (hp : s.block.phase = .idle) (hs : s.Serial)
    (h : acceptRequest s = some (r, t)) : t.AwaitsResult := by
  obtain ⟨hblock, -, -, htrace⟩ := acceptRequest_frame h
  obtain ⟨hnone, hdone⟩ := hs.1 hp
  exact ⟨by rw [hblock, hp], by simp [htrace, transferInFlight, hnone],
    by simp [htrace, requestOutstanding, hdone]⟩

/-- R24: the result is the one the outstanding request has. -/
theorem respond_serial (r : Result.Of E) (hs : s.AwaitsResult) : (respond r s).Serial :=
  serial_of_idle hs.idle (by simp [transferInFlight, hs.noTransfer]) (by simp [requestOutstanding, hs.outstanding])

/-- R33: a Transfer is issued only while none is in flight. -/
theorem issueTransfer_serial (h : H) (f : FrameWord) (hs : s.AwaitsResult) : (issueTransfer h f s).Serial :=
  serial_of_busy rfl (by simp [transferInFlight, hs.noTransfer]) (by simp [requestOutstanding, hs.outstanding])

theorem endTransfer_awaitsResult (a : TransferAnswer.Of E) (hp : s.block.phase = .busy) (hs : s.Serial) :
    (endTransfer a s).AwaitsResult := by
  obtain ⟨hflight, hout⟩ := hs.2 hp
  exact ⟨rfl, by simp [transferInFlight, hflight], by simp [requestOutstanding, hout]⟩

theorem callOpen_awaitsResult [Inhabited H] [Inhabited E] (cfg : OpenConfig) (hs : s.AwaitsResult) :
    (callOpen cfg s).2.AwaitsResult :=
  ⟨hs.idle, hs.noTransfer, hs.outstanding⟩

theorem callConfigure_awaitsResult [Inhabited E] (h : H) (cfg : OpenConfig) (hs : s.AwaitsResult) :
    (callConfigure h cfg s).2.AwaitsResult :=
  ⟨hs.idle, hs.noTransfer, hs.outstanding⟩

theorem callClose_awaitsResult (h : H) (hs : s.AwaitsResult) : (callClose h s).AwaitsResult :=
  ⟨hs.idle, hs.noTransfer, hs.outstanding⟩

theorem acquire_awaitsResult (h : H) (cfg : OpenConfig) (hs : s.AwaitsResult) : (acquire h cfg s).AwaitsResult :=
  ⟨hs.idle, hs.noTransfer, hs.outstanding⟩

theorem release_awaitsResult (hs : s.AwaitsResult) : (release s).AwaitsResult :=
  ⟨hs.idle, hs.noTransfer, hs.outstanding⟩

theorem openTransport_serial [Inhabited H] [Inhabited E] (cfg : OpenConfig) (hs : s.AwaitsResult) :
    (openTransport cfg s).Serial := by
  have hopen := callOpen_awaitsResult cfg hs
  rcases openTransport_cases cfg s with ⟨e, -, ht⟩ | ⟨h, e, -, -, ht⟩ | ⟨h, -, -, ht⟩ <;> rw [ht]
  · exact respond_serial _ hopen
  · exact respond_serial _ (callClose_awaitsResult h (callConfigure_awaitsResult h cfg hopen))
  · exact respond_serial _ (acquire_awaitsResult h cfg (callConfigure_awaitsResult h cfg hopen))

theorem issueRead_serial {ch : Int} (hs : s.AwaitsResult) (h : issueRead ch s = .next t) : t.Serial := by
  rcases issueRead_next h with ⟨-, rfl⟩ | ⟨-, -, rfl⟩ | ⟨-, -, k, -, rfl⟩
  · exact respond_serial _ hs
  · exact respond_serial _ hs
  · exact issueTransfer_serial k _ hs

theorem closeTransport_serial (hs : s.AwaitsResult) (h : closeTransport s = .next t) : t.Serial := by
  rcases closeTransport_next h with ⟨-, rfl⟩ | ⟨-, k, -, rfl⟩
  · exact respond_serial _ hs
  · exact respond_serial _ (release_awaitsResult (callClose_awaitsResult k hs))

theorem completeRead_keeps_serial [Inhabited E] (hp : s.block.phase = .busy) (hs : s.Serial) :
    (completeRead s).Serial := by
  rcases completeRead_cases s with ⟨a, d, -, ht⟩ | ⟨d, -, ht⟩ <;> rw [ht]
  · exact respond_serial _ (endTransfer_awaitsResult (s := { s with draws := d }) a hp hs)
  · exact hs

end

/-- An accepted host request gets its result at once or is a READ whose Transfer is now in flight. -/
theorem exec_request_serial {s t : State} {r : Request} {i : Instr} (hs : s.AwaitsResult)
    (hd : decodeRequest r = .ok i) (h : exec i s = .next t) : t.Serial := by
  rcases exec_request_next hs.idle hd h with ⟨cfg, -, -, rfl⟩ | ⟨ch, -, hread⟩ | ⟨-, hclose⟩
  · exact openTransport_serial cfg hs
  · exact issueRead_serial hs hread
  · exact closeTransport_serial hs hclose

/-- Settles O53: acceptance leads from `Serial` to `AwaitsResult`, running the request back to `Serial`; a Busy step goes
through both or changes neither. -/
theorem stepKeepsOneExchangeAtATime : Obligations.StepKeepsOneExchangeAtATime := by
  intro s t _ hs h
  rcases step_next h with ⟨-, hreset⟩ | ⟨-, -, rfl⟩ | ⟨-, hp, r, i, u, ha, hd, hrun⟩ | ⟨-, hp, rfl, -⟩
  · obtain ⟨-, hp, rfl⟩ := takeReset_next hreset
    exact serial_of_idle rfl (hs.1 hp).1 (hs.1 hp).2
  · exact hs
  · exact exec_request_serial (acceptRequest_awaitsResult (s := clearResponse s) hp hs ha) hd hrun
  · exact completeRead_keeps_serial (s := clearResponse s) hp hs

end Sys2Proof.Machine

namespace Sys2Proof.Machine

/-! ## Single steps: PHASE, the accepted request, faults, results and reset -/

section

variable {H E : Type} {n : Nat} {s t : State.Of H E n}

/-! ### PHASE -/

theorem openTransport_phase [Inhabited H] [Inhabited E] (cfg : OpenConfig) (s : State.Of H E n) :
    (openTransport cfg s).block.phase = s.block.phase := by
  rcases openTransport_cases cfg s with ⟨e, -, ht⟩ | ⟨h, e, -, -, ht⟩ | ⟨h, -, -, ht⟩ <;> rw [ht] <;> rfl

theorem closeTransport_phase (h : closeTransport s = .next t) : t.block.phase = s.block.phase := by
  rcases closeTransport_next h with ⟨-, rfl⟩ | ⟨-, k, -, rfl⟩ <;> rfl

/-- R71: only an answer ends a Transfer in flight. -/
theorem completeRead_answered_of_idle [Inhabited E] (hp : s.block.phase = .busy)
    (h : (completeRead s).block.phase = .idle) :
    ∃ a d, s.draws.transferAnswer s.block.handle s.block.tx = (some a, d) := by
  rcases completeRead_cases s with ⟨a, d, hans, -⟩ | ⟨d, -, ht⟩
  · exact ⟨a, d, hans⟩
  · rw [ht] at h
    exact absurd (hp.symm.trans h) (by decide)

/-! ### The fetch -/

theorem fetch_accepted {r : Request.Of n} {i : Instr} (hp : s.block.phase = .idle)
    (ha : acceptRequest s = some (r, t)) (hd : decodeRequest r = .ok i) : fetch s = .next (some i, t) := by
  simp [fetch, hp, ha, hd]

/-- One agent with a request to make: the port accepts it, whatever the arbiter's draws. -/
theorem acceptRequest_single {r : Request.Of n} {rest : List (Request.Of n)} {results : List (Result.Of E)}
    (h : s.requesters = [⟨r :: rest, false, results⟩]) :
    acceptRequest s = some (r, { s with
      requesters := [⟨rest, true, results⟩]
      trace := .accepted r :: s.trace }) := by
  have hport : presentedRequests [(⟨r :: rest, false, results⟩ : Requester.Of E n)] = [(0, r)] := rfl
  simp [acceptRequest, h, hport, arbitrate, Requester.Of.accepted]

theorem decodeCommand_of_not_isCommandFrame {f : FrameWord} (h : isCommandFrame f = false) :
    decodeCommand f = .error (.notACommandFrame f) := by
  have hm : f &&& commandMask ≠ commandMatch := by
    simpa [isCommandFrame, commandMask, commandMatch] using h
  simp [decodeCommand, hm]

/-- R19, R48: in PHASE Busy only a command frame can be fetched. -/
theorem fetch_busyWithoutFrame (hp : s.block.phase = .busy)
    (htx : s.block.tx = none ∨ ∃ f, s.block.tx = some f ∧ isCommandFrame f = false) :
    fetch s = .fault .busyWithoutFrame := by
  rcases htx with hnone | ⟨f, hsome, hf⟩
  · simp [fetch, hp, hnone]
  · simp [fetch, hp, hsome, decodeCommand_of_not_isCommandFrame hf, stopOn]

/-! ### An Open block without a handle (against R15) -/

theorem issueRead_openWithoutHandle {ch : Int} (hl : s.block.life = .opened) (hh : s.block.handle = none)
    (hv : valid ch = true) : issueRead ch s = .fault .openWithoutHandle := by
  simp [issueRead, hl, hh, hv]

theorem closeTransport_openWithoutHandle (hl : s.block.life = .opened) (hh : s.block.handle = none) :
    closeTransport s = .fault .openWithoutHandle := by
  simp [closeTransport, hl, hh]

/-- A 3-bit channel field is a valid channel (R51). -/
theorem valid_toNat (c : ChannelField) : valid c.toNat = true := by
  have := c.isLt
  rw [valid_iff]
  omega

/-! ### Results -/

@[simp] theorem receive_of_waiting (r : Result.Of E) {q : Requester.Of E n} (h : q.waiting = true) :
    q.receive r = { q with waiting := false, results := r :: q.results } := if_pos h

@[simp] theorem receive_of_not_waiting (r : Result.Of E) {q : Requester.Of E n} (h : q.waiting = false) :
    q.receive r = q := if_neg (by simp [h])

end

/-- The step runs what the fetch gives. -/
theorem step_of_fetch {s t : State} {i : Instr} (hr : s.resetAsserted = false)
    (h : fetch (clearResponse s) = .next (some i, t)) : step s = exec i t := by
  simp [step, stepWith, hr, h]

theorem step_fault_of_fetch {s : State} {f : Fault} (hr : s.resetAsserted = false)
    (h : fetch (clearResponse s) = .fault f) : step s = .fault f := by
  simp [step, stepWith, hr, h]

/-- Of the three host requests only READ leaves PHASE Idle (R68). -/
theorem exec_request_begins_busy {s t : State} {r : Request} {i : Instr} (hp : s.block.phase = .idle)
    (hd : decodeRequest r = .ok i) (h : exec i s = .next t) (hbusy : t.block.phase = .busy) :
    requestOp r.word = 2#4 := by
  have hmoved : t.block.phase ≠ s.block.phase := by simp [hp, hbusy]
  rcases exec_request_next hp hd h with ⟨cfg, -, -, rfl⟩ | ⟨ch, rfl, -⟩ | ⟨-, hclose⟩
  · exact absurd (openTransport_phase cfg s) hmoved
  · rcases decodeRequest_ok hd with ⟨-, hi⟩ | ⟨hop, -⟩ | ⟨-, hi⟩
    · cases hi
    · exact hop
    · cases hi
  · exact absurd (closeTransport_phase hclose) hmoved

/-- Settles O46: a Busy step is `completeRead`, which ends only with an answer; an Idle step leaves Idle only by READ. -/
theorem phaseChangesOnlyByReadAndAnswer : Obligations.PhaseChangesOnlyByReadAndAnswer := by
  intro s t hr h
  constructor
  · intro hbusy hidle
    rcases step_next h with ⟨hr', -⟩ | ⟨-, hp, -⟩ | ⟨-, hp, -⟩ | ⟨-, -, rfl, -⟩
    · simp [hr] at hr'
    · simp [hbusy] at hp
    · simp [hbusy] at hp
    · exact completeRead_answered_of_idle (s := clearResponse s) hbusy hidle
  · intro hidle hbusy
    rcases step_next h with ⟨hr', -⟩ | ⟨-, -, rfl⟩ | ⟨-, -, r, i, u, ha, hd, hrun⟩ | ⟨-, hp, -⟩
    · simp [hr] at hr'
    · simp [hidle] at hbusy
    · have hu : u.block = s.block := (acceptRequest_frame ha).1
      exact ⟨r, u, ha, exec_request_begins_busy (by rw [hu, hidle]) hd hrun hbusy⟩
    · simp [hidle] at hp

/-- Settles O34: the two cases of `receive`. -/
theorem resultReachesTheWaitingAgent : Obligations.ResultReachesTheWaitingAgent :=
  fun r _ => ⟨receive_of_waiting r, receive_of_not_waiting r⟩

/-- Settles O35: the issue of a valid READ and CLOSE need the handle, the fetch of a Busy block a command frame. -/
theorem statesAgainstTheInvariantsFault : Obligations.StatesAgainstTheInvariantsFault := by
  constructor
  · intro s hp hl hh
    refine ⟨fun ch h0 h7 => ?_, fun c => ?_, ?_⟩
    · rw [exec, execRead, whenIdle_idle hp]
      exact issueRead_openWithoutHandle hl hh ((valid_iff ch).2 ⟨h0, h7⟩)
    · simp only [exec, execMcp3208SeRead, hp]
      exact issueRead_openWithoutHandle hl hh (valid_toNat c)
    · rw [exec, execClose, whenIdle_idle hp]
      exact closeTransport_openWithoutHandle hl hh
  · intro s hr hp htx
    exact step_fault_of_fetch hr (fetch_busyWithoutFrame (s := clearResponse s) hp htx)

/-- Settles O36: the fetch gives the decoded request and the state after acceptance, with one agent by
`acceptRequest_single`. -/
theorem stepRunsTheAcceptedRequest : Obligations.StepRunsTheAcceptedRequest := by
  intro s i hr hp
  have haccepted : ∀ r t, acceptRequest (clearResponse s) = some (r, t) → decodeRequest r = .ok i →
      step s = exec i t :=
    fun r t ha hd => step_of_fetch hr (fetch_accepted hp ha hd)
  exact ⟨haccepted, fun r rest results hq hd => haccepted r _ (acceptRequest_single hq) hd⟩

/-- Settles O40: `Block.reset` and the constants of Config hold R25's and R17's values. -/
theorem resetValues : Obligations.ResetValues := by
  simp [Obligations.ResetValues, Block.reset, cfgMode, cfgBitOrder, Config.spiMode, Config.bitOrder]

/-- Settles O51: the block is Closed and Idle, and no event and no agent stands against the other four. -/
theorem resetMeetsTheInvariants : Obligations.ResetMeetsTheInvariants := by
  refine ⟨wf_reset, serial_of_idle rfl rfl rfl, ?_, ⟨?_, rfl⟩, ?_⟩
  · intro h
    rfl
  · intro h cfg hh
    cases hh
  · simp [State.Of.OneWaits, Block.reset]

end Sys2Proof.Machine

namespace Sys2Proof.Machine

/-! ## No history: what a step does depends on nothing already delivered or observed

Two states agree when they differ at most in the agents' past results and the trace. Each operation takes agreeing states
to agreeing states and gives the same answer on both; the step inherits this from the operations it is made of. -/

section

variable {H E : Type} {n : Nat} {s s' : State.Of H E n}

/-- What an agent can still act on: its requests and whether it waits. -/
def Requester.Of.live (q : Requester.Of E n) : List (Request.Of n) × Bool := (q.pending, q.waiting)

/-- The states differ at most in the agents' past results and the trace. -/
structure State.Of.Agrees (s s' : State.Of H E n) : Prop where
  block : s.block = s'.block
  resetAsserted : s.resetAsserted = s'.resetAsserted
  requesters : s.requesters.map Requester.Of.live = s'.requesters.map Requester.Of.live
  draws : s.draws = s'.draws
  response : s.response = s'.response

theorem agrees_iff : s.Agrees s' ↔ s.live = s'.live ∧ s.response = s'.response := by
  constructor
  · rintro ⟨hb, hr, hq, hd, hp⟩
    exact ⟨Prod.ext hb (Prod.ext hr (Prod.ext hq hd)), hp⟩
  · rintro ⟨hlive, hp⟩
    simp only [State.Of.live, Prod.mk.injEq] at hlive
    obtain ⟨hb, hr, hq, hd⟩ := hlive
    exact ⟨hb, hr, hq, hd, hp⟩

/-- Two outcomes are alike: related values, or the same fault, or the same refusal. -/
inductive Alike {α : Type} (R : α → α → Prop) : Host.Outcome α Fault Refusal → Host.Outcome α Fault Refusal → Prop
  | next {a a' : α} (h : R a a') : Alike R (.next a) (.next a')
  | fault (f : Fault) : Alike R (.fault f) (.fault f)
  | refused (r : Refusal) : Alike R (.refused r) (.refused r)

/-! ### The operations -/

theorem clearResponse_agrees (h : s.live = s'.live) : (clearResponse s).Agrees (clearResponse s') :=
  agrees_iff.2 ⟨h, rfl⟩

/-- Whether or not the agent waited, it does not wait after a result. -/
theorem live_receive (r : Result.Of E) (q : Requester.Of E n) : (q.receive r).live = (q.live.1, false) := by
  cases hw : q.waiting <;> simp [hw, Requester.Of.live]

namespace State.Of.Agrees

theorem respond (r : Result.Of E) (h : s.Agrees s') :
    (Machine.respond r s).Agrees (Machine.respond r s') where
  block := h.block
  resetAsserted := h.resetAsserted
  requesters := by
    have hmap : ∀ qs : List (Requester.Of E n), (qs.map (Requester.Of.receive r)).map Requester.Of.live =
        (qs.map Requester.Of.live).map fun p => (p.1, false) := by simp [live_receive]
    simp only [respond_requesters, hmap, h.requesters]
  draws := h.draws
  response := rfl

theorem withDraws (d : Draws.Of H E) (h : s.Agrees s') :
    State.Of.Agrees { s with draws := d } { s' with draws := d } :=
  ⟨h.block, h.resetAsserted, h.requesters, rfl, h.response⟩

theorem callOpen [Inhabited H] [Inhabited E] (cfg : OpenConfig) (h : s.Agrees s') :
    (Machine.callOpen cfg s).1 = (Machine.callOpen cfg s').1 ∧
      (Machine.callOpen cfg s).2.Agrees (Machine.callOpen cfg s').2 :=
  ⟨by simp [h.draws], h.block, h.resetAsserted, h.requesters, by simp [h.draws], h.response⟩

theorem callConfigure [Inhabited E] (k : H) (cfg : OpenConfig) (h : s.Agrees s') :
    (Machine.callConfigure k cfg s).1 = (Machine.callConfigure k cfg s').1 ∧
      (Machine.callConfigure k cfg s).2.Agrees (Machine.callConfigure k cfg s').2 :=
  ⟨by simp [h.draws], h.block, h.resetAsserted, h.requesters, by simp [h.draws], h.response⟩

theorem callClose (k : H) (h : s.Agrees s') : (Machine.callClose k s).Agrees (Machine.callClose k s') :=
  ⟨h.block, h.resetAsserted, h.requesters, h.draws, h.response⟩

theorem acquire (k : H) (cfg : OpenConfig) (h : s.Agrees s') :
    (Machine.acquire k cfg s).Agrees (Machine.acquire k cfg s') :=
  ⟨by simp [h.block], h.resetAsserted, h.requesters, h.draws, h.response⟩

theorem release (h : s.Agrees s') : (Machine.release s).Agrees (Machine.release s') :=
  ⟨by simp [h.block], h.resetAsserted, h.requesters, h.draws, h.response⟩

theorem issueTransfer (k : H) (f : FrameWord) (h : s.Agrees s') :
    (Machine.issueTransfer k f s).Agrees (Machine.issueTransfer k f s') :=
  ⟨by simp [h.block], h.resetAsserted, h.requesters, h.draws, h.response⟩

theorem endTransfer (a : TransferAnswer.Of E) (h : s.Agrees s') :
    (Machine.endTransfer a s).Agrees (Machine.endTransfer a s') :=
  ⟨by simp [h.block], h.resetAsserted, h.requesters, h.draws, h.response⟩

/-! ### The shared steps of the meanings -/

theorem openTransport [Inhabited H] [Inhabited E] (cfg : OpenConfig) (h : s.Agrees s') :
    (Machine.openTransport cfg s).Agrees (Machine.openTransport cfg s') := by
  obtain ⟨hopen, hs1⟩ := h.callOpen cfg
  unfold Machine.openTransport
  dsimp only
  rw [← hopen]
  cases (Machine.callOpen cfg s).1 with
  | err e => exact hs1.respond _
  | ok k =>
    obtain ⟨hconf, hs2⟩ := hs1.callConfigure k cfg
    dsimp only
    rw [← hconf]
    cases (Machine.callConfigure k cfg (Machine.callOpen cfg s).2).1 with
    | err e => exact (hs2.callClose k).respond _
    | ok => exact (hs2.acquire k cfg).respond _

theorem closeTransport (h : s.Agrees s') :
    Alike State.Of.Agrees (Machine.closeTransport s) (Machine.closeTransport s') := by
  unfold Machine.closeTransport
  rw [← h.block]
  cases s.block.life with
  | closed => exact .next (h.respond _)
  | opened =>
    cases s.block.handle with
    | none => exact .fault _
    | some k => exact .next ((h.callClose k).release.respond _)

theorem issueRead (ch : Int) (h : s.Agrees s') :
    Alike State.Of.Agrees (Machine.issueRead ch s) (Machine.issueRead ch s') := by
  unfold Machine.issueRead
  rw [← h.block]
  cases s.block.life with
  | closed => exact .next (h.respond _)
  | opened =>
    cases valid ch with
    | false => exact .next (h.respond _)
    | true =>
      cases s.block.handle with
      | none => exact .fault _
      | some k => exact .next (h.issueTransfer k _)

theorem completeRead [Inhabited E] (h : s.Agrees s') :
    (Machine.completeRead s).Agrees (Machine.completeRead s') := by
  have hans : s'.draws.transferAnswer s'.block.handle s'.block.tx =
      s.draws.transferAnswer s.block.handle s.block.tx := by rw [h.block, h.draws]
  unfold Machine.completeRead
  rw [hans]
  rcases s.draws.transferAnswer s.block.handle s.block.tx with ⟨_ | a, d⟩
  · exact h.withDraws d
  · exact ((h.withDraws d).endTransfer a).respond _

theorem whenIdle {effect : State.Of H E n → Host.Outcome (State.Of H E n) Fault Refusal}
    (he : Alike State.Of.Agrees (effect s) (effect s')) (h : s.Agrees s') :
    Alike State.Of.Agrees (Machine.whenIdle effect s) (Machine.whenIdle effect s') := by
  unfold Machine.whenIdle
  rw [← h.block]
  cases s.block.phase with
  | idle => exact he
  | busy => exact .next h

end State.Of.Agrees

/-! ### The request port -/

/-- What is presented is read from what the agents can act on. -/
theorem presentedRequests_eq_of_live {qs qs' : List (Requester.Of E n)}
    (h : qs.map Requester.Of.live = qs'.map Requester.Of.live) : presentedRequests qs = presentedRequests qs' := by
  have hlive : ∀ qs : List (Requester.Of E n), presentedRequests qs =
      (qs.map Requester.Of.live).zipIdx.filterMap fun p =>
        (if p.1.2 then none else p.1.1.head?).map fun r => (p.2, r) := by
    intro qs
    rw [List.zipIdx_map, List.filterMap_map]
    rfl
  rw [hlive, hlive, h]

/-- Acceptance of the k-th agent's request, on what the agents can act on. -/
theorem map_live_modify_accepted (qs : List (Requester.Of E n)) (k : Nat) :
    (qs.modify k Requester.Of.accepted).map Requester.Of.live =
      (qs.map Requester.Of.live).modify k fun p => (p.1.tail, true) := by
  apply List.ext_getElem?
  intro j
  simp only [List.getElem?_map, List.getElem?_modify]
  cases qs[j]? with
  | none => rfl
  | some q => by_cases hk : k = j <;> simp [hk, Requester.Of.live, Requester.Of.accepted]

/-- The port accepts the same request in agreeing states, or none in both. -/
theorem State.Of.Agrees.acceptRequest (h : s.Agrees s') :
    (Machine.acceptRequest s = none ∧ Machine.acceptRequest s' = none) ∨
    ∃ r t t', Machine.acceptRequest s = some (r, t) ∧ Machine.acceptRequest s' = some (r, t') ∧ t.Agrees t' := by
  unfold Machine.acceptRequest
  rw [← presentedRequests_eq_of_live h.requesters, ← h.draws]
  rcases arbitrate (presentedRequests s.requesters) s.draws with ⟨_ | ⟨k, r⟩, d⟩
  · exact .inl ⟨rfl, rfl⟩
  · refine .inr ⟨r, _, _, rfl, rfl, h.block, h.resetAsserted, ?_, rfl, h.response⟩
    simp only [map_live_modify_accepted, h.requesters]

/-- The same instruction to run, in agreeing states. -/
def FetchAgrees (p p' : Option Instr × State.Of H E n) : Prop := p.1 = p'.1 ∧ p.2.Agrees p'.2

theorem stopOn_alike (e : DecodeError) :
    Alike (FetchAgrees (H := H) (E := E) (n := n)) (stopOn e) (stopOn e) := by
  cases e with
  | reservedRequest op => exact .refused _
  | notACommandFrame f => exact .fault _

theorem State.Of.Agrees.fetch (h : s.Agrees s') : Alike FetchAgrees (Machine.fetch s) (Machine.fetch s') := by
  unfold Machine.fetch
  rw [← h.block]
  cases s.block.phase with
  | idle =>
    rcases h.acceptRequest with ⟨ha, ha'⟩ | ⟨r, t, t', ha, ha', ht⟩ <;> rw [ha, ha']
    · exact .next ⟨rfl, h⟩
    · dsimp only
      cases decodeRequest r with
      | ok i => exact .next ⟨rfl, ht⟩
      | error e => exact stopOn_alike e
  | busy =>
    cases s.block.tx with
    | none => exact .fault _
    | some f =>
      dsimp only
      cases decodeCommand f with
      | ok i => exact .next ⟨rfl, h⟩
      | error e => exact stopOn_alike e

/-! ### The step -/

theorem State.Of.Agrees.execOpenReq [Inhabited H] [Inhabited E] (cfg : OpenConfig) (h : s.Agrees s') :
    Alike State.Of.Agrees (Machine.execOpenReq cfg s) (Machine.execOpenReq cfg s') := by
  refine h.whenIdle ?_
  rw [← h.block]
  cases s.block.life with
  | opened => exact .refused _
  | closed => exact .next (h.openTransport cfg)

theorem State.Of.Agrees.execMcp3208SeRead [Inhabited E] (c : ChannelField) (h : s.Agrees s') :
    Alike State.Of.Agrees (Machine.execMcp3208SeRead c s) (Machine.execMcp3208SeRead c s') := by
  unfold Machine.execMcp3208SeRead
  rw [← h.block]
  cases s.block.phase with
  | idle => exact h.issueRead _
  | busy => exact .next h.completeRead

theorem takeReset_alike (h : s.live = s'.live) : Alike State.Of.Agrees (takeReset s) (takeReset s') := by
  obtain ⟨hb, -, hq, hd, -⟩ := clearResponse_agrees h
  unfold takeReset
  rw [show s.block = s'.block from hb]
  split
  · exact .refused _
  · exact .next ⟨rfl, rfl, hq, hd, rfl⟩

end

theorem exec_alike {s s' : State} (i : Instr) (h : s.Agrees s') : Alike State.Of.Agrees (exec i s) (exec i s') := by
  cases i with
  | openReq cfg => exact h.execOpenReq cfg
  | read ch => exact h.whenIdle (h.issueRead ch)
  | close => exact h.whenIdle h.closeTransport
  | mcp3208SeRead c => exact h.execMcp3208SeRead c

theorem step_alike {s s' : State} (h : s.live = s'.live) : Alike State.Of.Agrees (step s) (step s') := by
  have hclear := clearResponse_agrees h
  have hreset : s.resetAsserted = s'.resetAsserted := hclear.resetAsserted
  unfold step stepWith
  rw [← hreset]
  cases s.resetAsserted with
  | true => exact takeReset_alike h
  | false =>
    have hfetch := hclear.fetch
    generalize fetch (clearResponse s) = o, fetch (clearResponse s') = o' at hfetch ⊢
    cases hfetch with
    | @next p p' hp =>
      obtain ⟨i, t⟩ := p
      obtain ⟨i', t'⟩ := p'
      obtain ⟨rfl, ht⟩ : i = i' ∧ t.Agrees t' := hp
      cases i with
      | none => exact .next ht
      | some i => exact exec_alike i ht
    | fault f => exact .fault f
    | refused r => exact .refused r

/-- Settles O58: agreeing states step alike (`step_alike`). -/
theorem stepDependsOnNoHistory : Obligations.StepDependsOnNoHistory := by
  unfold Obligations.StepDependsOnNoHistory
  intro s s' hlive
  have h := step_alike hlive
  generalize step s = o, step s' = o' at h ⊢
  cases h with
  | next ht => exact agrees_iff.1 ht
  | fault f => rfl
  | refused r => rfl

end Sys2Proof.Machine

namespace Sys2Proof.Machine

/-! ## The wire, the request port and runs of READs -/

section

variable {H E : Type} {n : Nat} {s t : State.Of H E n}

/-! ### Bit periods -/

/-- R28: bit 7 of a byte crosses the wire first. -/
theorem byteBits_getElem? (b : Byte) {k : Nat} (hk : k < 8) : (byteBits b)[k]? = some (b.getLsbD (7 - k)) := by
  interval_cases k <;> rfl

@[simp] theorem length_byteBits (b : Byte) : (byteBits b).length = 8 := rfl

/-- R27, R28: the frame crosses the wire from bit 23 of its word down. -/
theorem wireBits_getElem? (f : Frame) {k : Nat} (hk : k < 24) :
    (wireBits f)[k]? = some ((frameWord f).getLsbD (23 - k)) := by
  rw [wireBits, frameWord_getLsbD, List.getElem?_append, List.getElem?_append]
  by_cases h0 : k < 8
  · simp [h0, show k < 16 by omega, byteBits_getElem?, show ¬ 23 - k < 8 by omega, show ¬ 23 - k < 16 by omega,
      show 23 - k - 16 = 7 - k by omega]
  · by_cases h1 : k < 16
    · simp [h0, h1, byteBits_getElem?, show ¬ 23 - k < 8 by omega, show 23 - k < 16 by omega, show k - 8 < 8 by omega,
        show 23 - k - 8 = 7 - (k - 8) by omega]
    · simp [h1, byteBits_getElem?, show 23 - k < 8 by omega, show k - 16 < 8 by omega,
        show 7 - (k - 16) = 23 - k by omega]

/-! ### Answers of the Transport -/

/-- R30, R88: only three bytes are a Response Frame. -/
theorem answerResult_of_length_ne [Inhabited E] {bytes : List Byte} (h : bytes.length ≠ 3) :
    answerResult (.ok bytes : TransferAnswer.Of E) = .err (.transferFailed (Config.wrongLengthCause bytes)) := by
  simp [answerResult, responseFrame_eq_none h]

/-- R69, R70: the answer ends the Transfer and gives the result. -/
theorem completeRead_of_answer [Inhabited E] {a : TransferAnswer.Of E} {d : Draws.Of H E}
    (h : s.draws.transferAnswer s.block.handle s.block.tx = (some a, d)) :
    completeRead s = respond (answerResult a) (endTransfer a { s with draws := d }) := by
  simp [completeRead, h]

theorem transferAnswer_of_listed [Inhabited E] {d : Draws.Of H E} {a : Option (TransferAnswer.Of E)}
    {rest : List (Option (TransferAnswer.Of E))} {h : Option H} {tx : Option FrameWord}
    (hd : d.transfer = a :: rest) : d.transferAnswer h tx = (a, { d with transfer := rest }) := by
  simp [Draws.Of.transferAnswer, hd]

/-! ### The trace -/

theorem openTransport_trace_suffix [Inhabited H] [Inhabited E] (cfg : OpenConfig) (s : State.Of H E n) :
    s.trace <:+ (openTransport cfg s).trace := by
  rcases openTransport_cases cfg s with ⟨e, -, ht⟩ | ⟨h, e, -, -, ht⟩ | ⟨h, -, -, ht⟩ <;> rw [ht]
  · exact ⟨[_, _], rfl⟩
  · exact ⟨[_, _, _, _], rfl⟩
  · exact ⟨[_, _, _], rfl⟩

theorem issueRead_trace_suffix {ch : Int} (h : issueRead ch s = .next t) : s.trace <:+ t.trace := by
  rcases issueRead_next h with ⟨-, rfl⟩ | ⟨-, -, rfl⟩ | ⟨-, -, k, -, rfl⟩ <;> exact List.suffix_cons _ _

theorem closeTransport_trace_suffix (h : closeTransport s = .next t) : s.trace <:+ t.trace := by
  rcases closeTransport_next h with ⟨-, rfl⟩ | ⟨-, k, -, rfl⟩
  · exact ⟨[_], rfl⟩
  · exact ⟨[_, _], rfl⟩

theorem completeRead_trace_suffix [Inhabited E] (s : State.Of H E n) : s.trace <:+ (completeRead s).trace := by
  rcases completeRead_cases s with ⟨a, d, -, ht⟩ | ⟨d, -, ht⟩
  · rw [ht]
    exact ⟨[_, _], rfl⟩
  · simp [ht]

/-! ### The request port -/

/-- An agent that does not wait presents its first pending request. -/
theorem mem_presentedRequests_of_pending {qs : List (Requester.Of E n)} {k : Nat} {q : Requester.Of E n}
    {r : Request.Of n} {rest : List (Request.Of n)} (hq : qs[k]? = some q) (hw : q.waiting = false)
    (hp : q.pending = r :: rest) : (k, r) ∈ presentedRequests qs := by
  simp only [presentedRequests, List.mem_filterMap, Option.map_eq_some_iff, Prod.mk.injEq]
  exact ⟨(q, k), List.mem_zipIdx_iff_getElem?.2 hq, r, by simp [Requester.Of.presents, hw, hp], rfl, rfl⟩

/-- What an acceptance does to the agent whose request it is. -/
theorem modify_accepted {qs : List (Requester.Of E n)} {k : Nat} {q : Requester.Of E n} {r : Request.Of n}
    {rest : List (Request.Of n)} (hq : qs[k]? = some q) (hp : q.pending = r :: rest) :
    qs.modify k Requester.Of.accepted = qs.set k { q with pending := rest, waiting := true } := by
  rw [List.modify_eq_set_getElem?, hq]
  simp [Requester.Of.accepted, hp]

theorem acceptRequest_of_arbitrate {k : Nat} {r : Request.Of n} {d : Draws.Of H E}
    (h : arbitrate (presentedRequests s.requesters) s.draws = (some (k, r), d)) :
    acceptRequest s = some (r, { s with
      draws := d
      requesters := s.requesters.modify k Requester.Of.accepted
      trace := .accepted r :: s.trace }) := by
  simp [acceptRequest, h]

/-- D8: each presented request is the one some choice picks. -/
theorem exists_choice_of_mem {ps : List (Nat × Request.Of n)} {p : Nat × Request.Of n} (h : p ∈ ps) (d : Draws.Of H E) :
    ∃ i d', arbitrate ps { d with choice := i :: d.choice } = (some p, d') := by
  obtain ⟨i, hi, rfl⟩ := List.getElem_of_mem h
  match ps, hi with
  | [p], hi =>
    obtain rfl : i = 0 := by simpa using hi
    exact ⟨0, _, rfl⟩
  | p :: p' :: ps, hi =>
    refine ⟨i, d, Prod.ext ?_ rfl⟩
    simp only [arbitrate, Draws.Of.arbiterChoice, Nat.mod_eq_of_lt hi, List.getElem?_eq_getElem hi]

/-- The arbiter's draw uses up a listed choice or counts a free one. -/
theorem arbiterChoice_draws (d : Draws.Of H E) (presented : Nat) :
    ∃ choice count, (d.arbiterChoice presented).2 = { d with choice := choice, count := count } := by
  unfold Draws.Of.arbiterChoice
  split
  · exact ⟨_, d.count, rfl⟩
  · exact ⟨d.choice, _, rfl⟩

/-- R36: of presented requests the arbiter picks one, whatever its choice. -/
theorem arbitrate_of_ne_nil {ps : List (Nat × Request.Of n)} (h : ps ≠ []) (d : Draws.Of H E) :
    ∃ p choice count, arbitrate ps d = (some p, { d with choice := choice, count := count }) := by
  match ps, h with
  | [p], _ => exact ⟨p, d.choice, d.count, rfl⟩
  | p :: p' :: ps, _ =>
    obtain ⟨choice, count, hd⟩ := arbiterChoice_draws d (p :: p' :: ps).length
    have hlt : (d.arbiterChoice (p :: p' :: ps).length).1 % (p :: p' :: ps).length < (p :: p' :: ps).length :=
      Nat.mod_lt _ (by simp)
    exact ⟨(p :: p' :: ps)[_]'hlt, choice, count, Prod.ext (List.getElem?_eq_getElem hlt) hd⟩

theorem presentedRequests_eq_nil {qs : List (Requester.Of E n)}
    (h : ∀ q ∈ qs, q.waiting = true ∨ q.pending = []) : presentedRequests qs = [] := by
  refine List.eq_nil_iff_forall_not_mem.2 fun ⟨k, r⟩ hmem => ?_
  obtain ⟨q, hq, hw, hp⟩ := mem_presentedRequests hmem
  rcases h q (List.mem_of_getElem? hq) with hw' | hnil
  · simp [hw] at hw'
  · simp [hnil] at hp

end

/-- Settles O17: both frames cross the wire from bit 23 down, in the same bit periods. -/
theorem fullDuplexBitPairing : Obligations.FullDuplexBitPairing := by
  intro command response k hk
  exact List.getElem?_zip_eq_some.2 ⟨wireBits_getElem? command hk, wireBits_getElem? response hk⟩

/-- Settles O43: what is presented is a list with an entry for each presenting agent, and `arbitrate` picks one of it. -/
theorem arbitrationAdmitsEveryOrder : Obligations.ArbitrationAdmitsEveryOrder := by
  refine ⟨fun s k q r rest hq hw hp => ?_, fun s ⟨q, hq, hw, hp⟩ => ?_, fun s h => ?_⟩
  · obtain ⟨i, d, ha⟩ := exists_choice_of_mem (mem_presentedRequests_of_pending hq hw hp) s.draws
    exact ⟨i, _, acceptRequest_of_arbitrate ha, modify_accepted hq hp, rfl⟩
  · obtain ⟨k, hk⟩ := List.getElem?_of_mem hq
    obtain ⟨r, rest, hp⟩ := List.exists_cons_of_ne_nil hp
    obtain ⟨⟨k', r'⟩, choice, count, ha⟩ :=
      arbitrate_of_ne_nil (List.ne_nil_of_mem (mem_presentedRequests_of_pending hk hw hp)) s.draws
    obtain ⟨q', hq', hw', hp'⟩ := mem_presentedRequests (arbitrate_some ha)
    obtain ⟨rest', hp'⟩ := List.head?_eq_some_iff.1 hp'
    refine ⟨k', q', r', rest', choice, count, hq', hw', hp', ?_⟩
    rw [acceptRequest_of_arbitrate ha, modify_accepted hq' hp']
  · simp [acceptRequest, presentedRequests_eq_nil h, arbitrate]

/-- R69 to R71: in PHASE Busy the wire command carries the exchange in flight on. -/
theorem exec_mcp3208SeRead_of_busy (c : ChannelField) {s : State} (hp : s.block.phase = .busy) :
    exec (.mcp3208SeRead c) s = .next (completeRead s) := by
  simp [exec, execMcp3208SeRead, hp]

/-- Settles O25: the answer is no Response Frame, so its result is TransferFailed. -/
theorem wrongLengthAnswerFailsTheRead : Obligations.WrongLengthAnswerFailsTheRead := by
  intro c bytes d s hp hlen hans
  refine ⟨Config.wrongLengthCause bytes, ?_⟩
  rw [exec_mcp3208SeRead_of_busy c hp, completeRead_of_answer hans, answerResult_of_length_ne hlen]
  rfl

/-- An accepted host request only adds to the trace. -/
theorem exec_request_trace_suffix {s t : State} {r : Request} {i : Instr} (hp : s.block.phase = .idle)
    (hd : decodeRequest r = .ok i) (h : exec i s = .next t) : s.trace <:+ t.trace := by
  rcases exec_request_next hp hd h with ⟨cfg, -, -, rfl⟩ | ⟨ch, -, hread⟩ | ⟨-, hclose⟩
  · exact openTransport_trace_suffix cfg s
  · exact issueRead_trace_suffix hread
  · exact closeTransport_trace_suffix hclose

/-- Settles O57: each operation puts its events in front of the trace, along the cases of `step_next`. -/
theorem traceOnlyGrows : Obligations.TraceOnlyGrows := by
  intro s t h
  rcases step_next h with ⟨-, hreset⟩ | ⟨-, -, rfl⟩ | ⟨-, hp, r, i, u, ha, hd, hrun⟩ | ⟨-, -, rfl, -⟩
  · obtain ⟨-, -, rfl⟩ := takeReset_next hreset
    exact List.suffix_rfl
  · exact List.suffix_rfl
  · obtain ⟨hblock, -, -, htrace⟩ := acceptRequest_frame ha
    have haccepted : s.trace <:+ u.trace := htrace ▸ List.suffix_cons _ _
    exact haccepted.trans (exec_request_trace_suffix (by rw [hblock]; exact hp) hd hrun)
  · exact completeRead_trace_suffix (clearResponse s)

/-! ### A run of READs

One READ against a Transport that answers is two steps, the issue and the completion (R64), after which the block is as it
was before and the agent's next request is presented. -/

/-- The request of a READ, as its instruction encodes (`encode_read`). -/
def readRequest (ch : Int) : Request := ⟨requestWord 2#4 (BitVec.ofInt 32 ch), noConfig⟩

/-- A valid channel is read back from its word (R43). -/
theorem decodeRequest_readRequest {ch : Int} (hv : valid ch = true) :
    decodeRequest (readRequest ch) = .ok (.read ch) := by
  obtain ⟨h0, h7⟩ := (valid_iff ch).1 hv
  have hop : requestOp (readRequest ch).word = 2#4 := requestOp_requestWord _ _
  have harg : requestArg (readRequest ch).word = BitVec.ofInt 32 ch := requestArg_requestWord _ _
  rw [decodeRequest_read hop, harg, BitVec.toInt_ofInt, Int.bmod_eq_of_le (by omega) (by omega)]

/-- R68: the issue of a valid READ on an Open block. -/
theorem exec_read_of_opened {ch : Int} {h : Handle} {s : State} (hp : s.block.phase = .idle)
    (hl : s.block.life = .opened) (hh : s.block.handle = some h) (hv : valid ch = true) :
    exec (.read ch) s = .next (issueTransfer h (frameWord (enc (channelField ch))) s) := by
  simp [exec, execRead, whenIdle_idle hp, issueRead, hl, hh, hv]

/-- R19, R57: a step in PHASE Busy carries the exchange of the command frame in TX on. -/
theorem step_of_busy {f : FrameWord} {s : State} (hr : s.resetAsserted = false) (hp : s.block.phase = .busy)
    (htx : s.block.tx = some f) (hf : isCommandFrame f = true) : step s = .next (completeRead (clearResponse s)) := by
  have hfetch : fetch (clearResponse s) = .next (some (.mcp3208SeRead (f.extractLsb' 14 3)), clearResponse s) := by
    simp [fetch, hp, htx, decodeCommand_of_isCommandFrame hf]
  rw [step_of_fetch hr hfetch]
  exact exec_mcp3208SeRead_of_busy _ hp

/-- An Open, Idle block with this handle and no reset, and one agent with these requests and results that does not wait:
what each READ of a run starts from. -/
structure ReadyFor (h : Handle) (requests : List Request) (results : List Result) (s : State) : Prop where
  wf : s.block.Wf
  handle : s.block.handle = some h
  idle : s.block.phase = .idle
  noReset : s.resetAsserted = false
  requesters : s.requesters = [⟨requests, false, results⟩]

/-- The state after the issue of a READ: its request is accepted and its Transfer is in flight. -/
def duringRead (h : Handle) (ch : Int) (rest : List Request) (results : List Result) (s : State) : State :=
  issueTransfer h (frameWord (enc (channelField ch))) { clearResponse s with
    requesters := [⟨rest, true, results⟩]
    trace := .accepted (readRequest ch) :: s.trace }

/-- The state after one READ: its Transfer was called and answered, the answer's result delivered, and `draws` are left. -/
def afterRead (h : Handle) (ch : Int) (a : TransferAnswer) (rest : List Request) (results : List Result)
    (draws : Draws) (s : State) : State :=
  { s with
    response := some (answerResult a)
    requesters := [⟨rest, false, answerResult a :: results⟩]
    draws := draws
    trace := .respond (answerResult a) :: .answered a :: .transfer h (enc (channelField ch)) ::
      .accepted (readRequest ch) :: s.trace }

section

variable {ch : Int} {h : Handle} {a : TransferAnswer} {requests rest : List Request} {results : List Result} {s : State}

theorem ReadyFor.opened (hs : ReadyFor h requests results s) : s.block.life = .opened := by
  obtain ⟨hlife, -⟩ := hs.wf
  exact hlife.1 (by simp [hs.handle])

/-- TX holds a frame in PHASE Busy only (R19). -/
theorem ReadyFor.tx (hs : ReadyFor h requests results s) : s.block.tx = none := by
  obtain ⟨-, -, htx, -⟩ := hs.wf
  simpa [hs.idle] using htx

/-- R64, R68: the step that accepts the READ issues its Transfer. -/
theorem step_issues_read (hv : valid ch = true) (hs : ReadyFor h (readRequest ch :: rest) results s) :
    step s = .next (duringRead h ch rest results s) := by
  have ha := acceptRequest_single (s := clearResponse s) hs.requesters
  rw [step_of_fetch hs.noReset (fetch_accepted hs.idle ha (decodeRequest_readRequest hv))]
  exact exec_read_of_opened hs.idle hs.opened hs.handle hv

/-- R69: completing the READ takes the block back to what it was before. -/
theorem completeRead_duringRead {d : Draws} (hs : ReadyFor h (readRequest ch :: rest) results s)
    (ha : s.draws.transferAnswer s.block.handle (some (frameWord (enc (channelField ch)))) = (some a, d)) :
    completeRead (clearResponse (duringRead h ch rest results s)) = afterRead h ch a rest results d s := by
  have hblock : { s.block with tx := none, phase := .idle } = s.block := by rw [← hs.tx, ← hs.idle]
  rw [completeRead_of_answer (s := clearResponse (duringRead h ch rest results s)) ha]
  simp [respond, endTransfer, duringRead, issueTransfer, clearResponse, afterRead, hblock]

/-- R64: the two steps of a READ whose Transfer is answered in the second. -/
theorem run_read {n : Nat} {d : Draws} (hv : valid ch = true) (hs : ReadyFor h (readRequest ch :: rest) results s)
    (ha : s.draws.transferAnswer s.block.handle (some (frameWord (enc (channelField ch)))) = (some a, d)) :
    run (n + 2) s = run n (afterRead h ch a rest results d s) := by
  have hbusy : step (duringRead h ch rest results s) = .next (afterRead h ch a rest results d s) := by
    rw [← completeRead_duringRead hs ha]
    exact step_of_busy hs.noReset rfl rfl (isCommandFrame_frameWord_enc _)
  rw [run_succ (step_issues_read hv hs), run_succ hbusy]

/-- Each READ of a run leaves the block ready for the next. -/
theorem readyFor_afterRead {d : Draws} (hs : ReadyFor h (readRequest ch :: rest) results s) :
    ReadyFor h rest (answerResult a :: results) (afterRead h ch a rest results d s) :=
  ⟨hs.wf, hs.handle, hs.idle, hs.noReset, rfl⟩

/-- R33, R37: READs whose Transfers all have the same answer, two steps each, have the same result, in order. -/
theorem run_reads {later : List (Option TransferAnswer)} {chs : List Int} (hv : ∀ ch ∈ chs, valid ch = true)
    (hs : ReadyFor h (chs.map readRequest) results s)
    (ha : s.draws.transfer = List.replicate chs.length (some a) ++ later) :
    ∃ t, run (2 * chs.length) s = .next t ∧ t.block = s.block ∧
      t.requesters = [⟨[], false, List.replicate chs.length (answerResult a) ++ results⟩] ∧
      transfersOf t.trace = (chs.map fun ch => (h, enc (channelField ch))).reverse ++ transfersOf s.trace := by
  induction chs generalizing results s with
  | nil => exact ⟨s, rfl, rfl, hs.requesters, rfl⟩
  | cons ch chs ih =>
    obtain ⟨hch, hchs⟩ := List.forall_mem_cons.1 hv
    obtain ⟨t, hrun, hblock, hreq, htrace⟩ := ih hchs (readyFor_afterRead (a := a)
      (d := { s.draws with transfer := List.replicate chs.length (some a) ++ later }) hs) rfl
    have hfirst := transferAnswer_of_listed (h := s.block.handle)
      (tx := some (frameWord (enc (channelField ch)))) (by rw [ha, List.length_cons]; rfl)
    refine ⟨t, (run_read hch hs hfirst).trans hrun, hblock, ?_, ?_⟩
    · rw [hreq, List.length_cons, List.replicate_succ', List.append_assoc, List.singleton_append]
    · rw [htrace, List.map_cons, List.reverse_cons, List.append_assoc]
      rfl

end

/-- Settles O49: `run_reads` with the Response Frame's Sample as each answer's result. -/
theorem repeatedReadsGiveTheSameSample : Obligations.RepeatedReadsGiveTheSameSample := by
  intro chs b0 b1 b2 h results later s hchs hw hh hp hr hq ha
  exact run_reads (fun ch hch => (valid_iff ch).2 (hchs ch hch)) ⟨hw, hh, hp, hr, hq⟩ ha

end Sys2Proof.Machine

namespace Sys2Proof.Machine

/-! ## Encodings: the fields of a word, and the words of an instruction -/

/-! ### The request word at any CH_W -/

/-- R43: `op` and `arg` are the whole word. -/
theorem requestWordAt_fields (n : Nat) (w : BitVec (n + 4)) :
    requestWordAt n (requestOpAt n w) (requestArgAt n w) = w := by
  apply BitVec.eq_of_getLsbD_eq
  intro i hi
  rw [requestWordAt_getLsbD]
  split
  · next h => simp [requestArgAt, h]
  · next h => simp [requestOpAt, show i - n < 4 by omega, show n + (i - n) = i by omega]

theorem requestWord_fields (w : RequestWord) : requestWord (requestOp w) (requestArg w) = w :=
  requestWordAt_fields Config.chW w

/-- An operand that fits the field is read back from it as the integer it was (R43, R49). -/
theorem toInt_ofInt_of_operandFitsAt {n : Nat} {ch : Int} (hn : 0 < n) (h : operandFitsAt n ch = true) :
    (BitVec.ofInt n ch).toInt = ch := by
  simp only [operandFitsAt, Bool.and_eq_true, decide_eq_true_eq] at h
  obtain ⟨hlow, hhigh⟩ := h
  exact BitVec.toInt_ofInt_eq_self hn hlow hhigh

/-- READ's code and operand, at any CH_W (R44, R64). -/
theorem decodeRequestAt_read (n : Nat) (arg : BitVec n) (cfg : OpenConfig) :
    decodeRequestAt n (requestWordAt n 2#4 arg) cfg = .ok (.read arg.toInt) := by
  simp [decodeRequestAt]

theorem decodeRequestAt_read_of_fits {n : Nat} {ch : Int} (hn : 0 < n) (cfg : OpenConfig)
    (h : operandFitsAt n ch = true) :
    decodeRequestAt n (requestWordAt n 2#4 (BitVec.ofInt n ch)) cfg = .ok (.read ch) := by
  rw [decodeRequestAt_read, toInt_ofInt_of_operandFitsAt hn h]

/-! ### The command word -/

/-- R39: the channel field is read back from bits 16..14. -/
theorem extractLsb'_commandWord (c : ChannelField) : (commandWord c).extractLsb' 14 3 = c := by
  revert c; decide

theorem decodeCommand_commandWord (c : ChannelField) : decodeCommand (commandWord c) = .ok (.mcp3208SeRead c) := by
  have hframe : isCommandFrame (commandWord c) = true := frameWord_enc c ▸ isCommandFrame_frameWord_enc c
  rw [decodeCommand_of_isCommandFrame hframe, extractLsb'_commandWord]

/-- R39, bit by bit: the channel field stands at bits 16..14, and every other bit is fixed. -/
theorem commandWord_getLsbD (c : ChannelField) {i : Nat} (hi : i < 24) :
    (commandWord c).getLsbD i = if 14 ≤ i ∧ i < 17 then c.getLsbD (i - 14) else commandMatch.getLsbD i := by
  revert c i; decide

/-- R57: the mask leaves out the channel field and nothing else. -/
theorem commandMask_getLsbD {i : Nat} (hi : i < 24) : commandMask.getLsbD i = !decide (14 ≤ i ∧ i < 17) := by
  revert i; decide

/-- A command frame is the word of its own channel field (R54). -/
theorem commandWord_extractLsb' {f : FrameWord} (h : isCommandFrame f = true) :
    commandWord (f.extractLsb' 14 3) = f := by
  have hfixed : f &&& commandMask = commandMatch := by simpa [isCommandFrame, commandMask, commandMatch] using h
  apply BitVec.eq_of_getLsbD_eq
  intro i hi
  rw [commandWord_getLsbD _ hi]
  split
  · next hc => simp [show i - 14 < 3 by omega, show 14 + (i - 14) = i by omega]
  · next hc => simp [← hfixed, commandMask_getLsbD hi, hc, -BitVec.getLsbD_eq_getElem]

/-! ### Text lines -/

/-- Decimal digits after a first value are worth what the library's reading gives. -/
theorem digitsValue_eq_ofDigitChars {cs : List Char} (h : ∀ c ∈ cs, c.isDigit = true) (v : Nat) :
    digitsValue v cs = some (Nat.ofDigitChars 10 cs v) := by
  induction cs generalizing v with
  | nil => rfl
  | cons c cs ih =>
    obtain ⟨hc, hcs⟩ := List.forall_mem_cons.1 h
    simp [digitsValue, digitValue, hc, ih hcs, Nat.ofDigitChars_cons, Nat.mul_comm]

theorem parseNat_eq_ofDigitChars {cs : List Char} (hne : cs ≠ []) (h : ∀ c ∈ cs, c.isDigit = true) :
    parseNat cs = some (Nat.ofDigitChars 10 cs 0) := by
  cases cs with
  | nil => exact absurd rfl hne
  | cons c cs => exact digitsValue_eq_ofDigitChars h 0

theorem isDigit_of_mem_toDigits_ten {n : Nat} : ∀ c ∈ Nat.toDigits 10 n, c.isDigit = true :=
  fun _ hc => Nat.isDigit_of_mem_toDigits (by decide) (by decide) hc

theorem parseNat_toDigits (n : Nat) : parseNat (Nat.toDigits 10 n) = some n := by
  rw [parseNat_eq_ofDigitChars Nat.toDigits_ne_nil isDigit_of_mem_toDigits_ten, Nat.ofDigitChars_ten_toDigits]

theorem parseInt_neg (cs : List Char) : parseInt ('-' :: cs) = (parseNat cs).map fun m : Nat => -(m : Int) := by
  rw [parseInt]
  cases parseNat cs <;> rfl

/-- Without a minus sign an `<int>` is a `<nat>`. -/
theorem parseInt_of_isDigit {cs : List Char} (h : ∀ c ∈ cs, c.isDigit = true) :
    parseInt cs = (parseNat cs).map fun m : Nat => (m : Int) := by
  unfold parseInt
  split
  · exact absurd (h '-' List.mem_cons_self) (by decide)
  · cases parseNat cs <;> rfl

/-- An accepted READ line is the READ of an operand in range (R49). -/
theorem parseRead_ok {operand : List Char} {n : Nat} {i : Instr} (h : parseRead operand n = .ok (some i)) :
    ∃ ch, i = .read ch ∧ operandFitsAt n ch = true := by
  unfold parseRead at h
  split at h
  · cases h
  · next ch _ =>
    split at h
    · next hfits => cases h; exact ⟨ch, rfl, hfits⟩
    · cases h

/-- All that a line can hold: one of the three host requests, a READ only with an operand in range (R49). -/
theorem parseLine_ok {line : List Char} {n : Nat} {i : Instr} (h : parseLine line n = .ok (some i)) :
    (∃ cfg, i = .openReq cfg) ∨ (∃ ch, i = .read ch ∧ operandFitsAt n ch = true) ∨ i = .close := by
  unfold parseLine at h
  split at h
  · cases h
  · split at h
    · next cfg _ => cases h; exact .inl ⟨cfg, rfl⟩
    · cases h
  · exact .inr (.inl (parseRead_ok h))
  · cases h; exact .inr (.inr rfl)
  · cases h

/-- R50: an assembled line is the encoding of the request it parses to. -/
theorem assembleLine_ok {line : List Char} {e : Encoded} (h : assembleLine line = .ok (some e)) :
    ∃ i, parseLine line = .ok (some i) ∧ e = encode i := by
  unfold assembleLine at h
  split at h
  · next o ho =>
    simp only [Except.ok.injEq, Option.map_eq_some_iff] at h
    obtain ⟨i, rfl, rfl⟩ := h
    exact ⟨i, ho, rfl⟩
  · cases h

/-! ### The step at any parameters -/

/-- The step of a machine at any parameters runs what the fetch gives. -/
theorem stepAt_of_fetch {H E : Type} [Inhabited H] [Inhabited E] {n : Nat} {s t : State.Of H E n} {i : Instr}
    (hr : s.resetAsserted = false) (h : fetch (clearResponse s) = .next (some i, t)) : stepAt s = execAt i t := by
  simp [stepAt, stepWith, hr, h]

/-! ### The statements -/

/-- Settles O1: each constructor's word is decoded by its `op`, or as the command frame it is. -/
theorem decodeInvertsEncode : Obligations.DecodeInvertsEncode := by
  intro i hwf
  cases i with
  | openReq cfg => simp [decodeRequest_open]
  | read ch => exact decodeRequestAt_read_of_fits (by decide) noConfig hwf
  | close => simp [decodeRequest_close]
  | mcp3208SeRead c => exact decodeCommand_commandWord c

/-- Settles O2: a request is one of three by its `op`, and READ's `op` and operand are its whole word. -/
theorem encodeRestoresTheDecodedWord : Obligations.EncodeRestoresTheDecodedWord := by
  constructor
  · intro f i h
    obtain ⟨hframe, rfl⟩ := decodeCommand_ok h
    rw [encode_mcp3208SeRead, commandWord_extractLsb' hframe]
  · intro r i h
    rcases decodeRequest_ok h with ⟨hop, rfl⟩ | ⟨hop, rfl⟩ | ⟨hop, rfl⟩
    · exact ⟨_, encode_openReq _, by simp [hop]⟩
    · refine ⟨⟨r.word, noConfig⟩, ?_, by simp [hop]⟩
      rw [encode_read, BitVec.ofInt_toInt, ← hop, requestWord_fields]
    · exact ⟨_, encode_close, by simp [hop]⟩

/-- Settles O4: the one presented word is accepted and decodes to the READ of its operand, which the step runs. -/
theorem requestFieldsAtEveryOperandWidth : Obligations.RequestFieldsAtEveryOperandWidth := by
  intro n hn
  refine ⟨fun op arg => ⟨requestOpAt_requestWordAt n op arg, requestArgAt_requestWordAt n op arg⟩,
    fun ch cfg hfits => decodeRequestAt_read_of_fits hn cfg hfits, ?_, step_eq_stepAt⟩
  intro H E _ _ ch cfg rest results s hfits hr hp hq
  have haccept := acceptRequest_single (s := clearResponse s) hq
  exact stepAt_of_fetch hr (fetch_accepted hp haccept (decodeRequestAt_read_of_fits hn cfg hfits))

/-- Settles O6: a parsed request is well formed and its word is a request word, which decodes back by
`decodeInvertsEncode`. -/
theorem assembledLinesDecodeBack : Obligations.AssembledLinesDecodeBack := by
  intro line e h
  obtain ⟨i, hparse, rfl⟩ := assembleLine_ok h
  have hback (hwf : i.wf = true) : decode (encode i) = .ok i := decodeInvertsEncode i hwf
  rcases parseLine_ok hparse with ⟨cfg, rfl⟩ | ⟨ch, rfl, hfits⟩ | rfl
  · exact ⟨_, _, hparse, rfl, encode_openReq cfg, hback rfl⟩
  · exact ⟨_, _, hparse, hfits, encode_read ch, hback hfits⟩
  · exact ⟨_, _, hparse, rfl, encode_close, hback rfl⟩

/-- Settles O7: the digits of a numeral are all decimal digits, so no minus sign. -/
theorem decimalOperandsReadBack : Obligations.DecimalOperandsReadBack := by
  intro n
  refine ⟨parseNat_toDigits n, ?_, ?_⟩
  · rw [parseInt_of_isDigit isDigit_of_mem_toDigits_ten, parseNat_toDigits, Option.map_some]
  · rw [parseInt_neg, parseNat_toDigits, Option.map_some]

/-- Settles O9: both say that the operand's unsigned value is below 8. -/
theorem readOperandValidWhenHighBitsZero : Obligations.ReadOperandValidWhenHighBitsZero := by
  intro arg
  have hlt := arg.isLt
  have hvalid : valid arg.toInt = true ↔ arg.toNat < 8 := by
    rw [valid_iff, BitVec.toInt_eq_toNat_cond]
    split <;> omega
  have hhigh : arg.extractLsb' 3 29 = 0#29 ↔ arg.toNat < 8 := by
    rw [← BitVec.toNat_inj, BitVec.extractLsb'_toNat, Nat.shiftRight_eq_div_pow, BitVec.toNat_ofNat]
    omega
  rw [hvalid, hhigh]

/-- Settles O3: the fields are the whole word, and the four cases of `op` are the decoder's. -/
theorem requestDecodesByOpAlone : Obligations.RequestDecodesByOpAlone := by
  refine ⟨fun w => (requestWord_fields w).symm, fun op arg cfg => ?_⟩
  generalize hr : (⟨requestWord op arg, cfg⟩ : Request) = r
  have hop : requestOp r.word = op := hr ▸ requestOp_requestWord op arg
  have harg : requestArg r.word = arg := hr ▸ requestArg_requestWord op arg
  have hcfg : r.cfg = cfg := hr ▸ rfl
  split
  · next h1 => rw [decodeRequest_open (hop.trans h1), hcfg]
  · next h1 =>
    split
    · next h2 => rw [decodeRequest_read (hop.trans h2), harg]
    · next h2 =>
      split
      · next h3 => exact decodeRequest_close (hop.trans h3)
      · next h3 => rw [decodeRequest_reserved (by rwa [hop]) (by rwa [hop]) (by rwa [hop]), hop]

/-- Settles O5: ten fixed words, each read by the decoder. -/
theorem specWordsDecode : Obligations.SpecWordsDecode := by
  unfold Obligations.SpecWordsDecode
  decide

end Sys2Proof.Machine

namespace Sys2Proof.Machine

/-! ## The configuration ledger: every Transfer is a command frame on a configured handle

TOpen, TConfigure and TClose are the events that change what a handle is configured for. OPEN calls them on a Closed
block, whose ledger is only about the past, and CLOSE leaves one. -/

section

variable {H E : Type} {n : Nat} [DecidableEq H] {s t : State.Of H E n}

/-! ### The trace -/

@[simp] theorem configuredSpeed_respond (h : H) (r : Result.Of E) (older : List (Event.Of H E n)) :
    configuredSpeed h (.respond r :: older) = configuredSpeed h older := rfl

/-- R103: a successful TConfigure with the hardwired mode and bit order configures its handle. -/
@[simp] theorem configuredSpeed_tConfigure_self (h : H) (speed : Nat) (older : List (Event.Of H E n)) :
    configuredSpeed h (.tConfigure h speed 0 .msbFirst .ok :: older) = some speed := by
  simp [configuredSpeed]

@[simp] theorem transfersProper_tOpen (bus device : Nat) (a : OpenAnswer.Of H E) (older : List (Event.Of H E n)) :
    transfersProper (.tOpen bus device a :: older) = transfersProper older := rfl
@[simp] theorem transfersProper_tConfigure (h : H) (speed mode : Nat) (order : BitOrder) (a : ConfigureAnswer.Of E)
    (older : List (Event.Of H E n)) :
    transfersProper (.tConfigure h speed mode order a :: older) = transfersProper older := rfl
@[simp] theorem transfersProper_tClose (h : H) (older : List (Event.Of H E n)) :
    transfersProper (.tClose h :: older) = transfersProper older := rfl
@[simp] theorem transfersProper_respond (r : Result.Of E) (older : List (Event.Of H E n)) :
    transfersProper (.respond r :: older) = transfersProper older := rfl

/-! ### The operations -/

/-- A Closed block's ledger is only about the past. -/
theorem configuredLedger_of_noHandle (hh : s.block.handle = none) (ht : transfersProper s.trace = true) :
    s.ConfiguredLedger :=
  ⟨fun h cfg hs => by simp [hh] at hs, ht⟩

theorem acceptRequest_keeps_configuredLedger {r : Request.Of n} (hs : s.ConfiguredLedger)
    (h : acceptRequest s = some (r, t)) : t.ConfiguredLedger := by
  obtain ⟨_, _, _, _, _, _, rfl⟩ := acceptRequest_some h
  exact hs

theorem respond_keeps_configuredLedger (r : Result.Of E) (hs : s.ConfiguredLedger) : (respond r s).ConfiguredLedger :=
  hs

theorem endTransfer_keeps_configuredLedger (a : TransferAnswer.Of E) (hs : s.ConfiguredLedger) :
    (endTransfer a s).ConfiguredLedger :=
  hs

/-- R15, R16: HANDLE comes with CFG, so the ledger says what it is configured for. -/
theorem configuredSpeed_isSome_of_handle {h : H} (hw : s.block.Wf) (hs : s.ConfiguredLedger)
    (hh : s.block.handle = some h) : (configuredSpeed h s.trace).isSome = true := by
  obtain ⟨hhandle, hcfg, -, -, -⟩ := hw
  obtain ⟨cfg, hc⟩ := Option.isSome_iff_exists.1 (hcfg.2 (hhandle.1 (by simp [hh])))
  simp [hs.1 h cfg hh hc]

/-- R48, R103: the one operation that calls Transfer, on HANDLE and with a command frame. -/
theorem issueTransfer_keeps_configuredLedger {h : H} {f : FrameWord} (hh : s.block.handle = some h)
    (hf : isCommandFrame f = true) (hw : s.block.Wf) (hs : s.ConfiguredLedger) :
    (issueTransfer h f s).ConfiguredLedger := by
  refine ⟨hs.1, ?_⟩
  simp [transfersProper, configuredSpeed_isSome_of_handle hw hs hh, hf, hs.2]

/-- R76: HANDLE is the handle just configured, for CFG's speed. -/
theorem openTransport_keeps_configuredLedger [Inhabited H] [Inhabited E] (cfg : OpenConfig)
    (hh : s.block.handle = none) (hs : s.ConfiguredLedger) : (openTransport cfg s).ConfiguredLedger := by
  obtain ⟨-, hproper⟩ := hs
  rcases openTransport_cases cfg s with ⟨e, -, ht⟩ | ⟨h, e, -, -, ht⟩ | ⟨h, -, hok, ht⟩ <;> rw [ht]
  · exact configuredLedger_of_noHandle hh (by simpa using hproper)
  · exact configuredLedger_of_noHandle hh (by simpa using hproper)
  · refine ⟨fun k cfg' hk hc => ?_, by simpa using hproper⟩
    cases hk
    cases hc
    rw [respond_trace, acquire_trace, callConfigure_trace, hok, configuredSpeed_respond,
      configuredSpeed_tConfigure_self]

theorem issueRead_keeps_configuredLedger {ch : Int} (hw : s.block.Wf) (hs : s.ConfiguredLedger)
    (h : issueRead ch s = .next t) : t.ConfiguredLedger := by
  rcases issueRead_next h with ⟨-, rfl⟩ | ⟨-, -, rfl⟩ | ⟨-, -, k, hk, rfl⟩
  · exact respond_keeps_configuredLedger _ hs
  · exact respond_keeps_configuredLedger _ hs
  · exact issueTransfer_keeps_configuredLedger hk (isCommandFrame_frameWord_enc _) hw hs

theorem closeTransport_keeps_configuredLedger (hs : s.ConfiguredLedger) (h : closeTransport s = .next t) :
    t.ConfiguredLedger := by
  rcases closeTransport_next h with ⟨-, rfl⟩ | ⟨-, k, -, rfl⟩
  · exact respond_keeps_configuredLedger _ hs
  · exact configuredLedger_of_noHandle rfl hs.2

theorem completeRead_keeps_configuredLedger [Inhabited E] (hs : s.ConfiguredLedger) :
    (completeRead s).ConfiguredLedger := by
  rcases completeRead_cases s with ⟨a, d, -, ht⟩ | ⟨d, -, ht⟩ <;> rw [ht]
  · exact respond_keeps_configuredLedger _ (endTransfer_keeps_configuredLedger (s := { s with draws := d }) a hs)
  · exact hs

end

/-- R15: a Closed block holds no handle. -/
theorem handle_eq_none_of_closed {H : Type} {b : Block.Of H} (hw : b.Wf) (hl : b.life = .closed) : b.handle = none := by
  obtain ⟨hhandle, -⟩ := hw
  simpa [hl] using hhandle

/-- An accepted host request, run on an Idle block. -/
theorem exec_request_keeps_configuredLedger {s t : State} {r : Request} {i : Instr} (hp : s.block.phase = .idle)
    (hw : s.block.Wf) (hs : s.ConfiguredLedger) (hd : decodeRequest r = .ok i) (h : exec i s = .next t) :
    t.ConfiguredLedger := by
  rcases exec_request_next hp hd h with ⟨cfg, -, hl, rfl⟩ | ⟨ch, -, hread⟩ | ⟨-, hclose⟩
  · exact openTransport_keeps_configuredLedger cfg (handle_eq_none_of_closed hw hl) hs
  · exact issueRead_keeps_configuredLedger hw hs hread
  · exact closeTransport_keeps_configuredLedger hs hclose

/-- Settles O55: only READ's issue calls Transfer, and only OPEN's success fills HANDLE, along the cases of
`step_next`. -/
theorem stepKeepsTheConfigurationLedger : Obligations.StepKeepsTheConfigurationLedger := by
  intro s t hw hs h
  rcases step_next h with ⟨-, hreset⟩ | ⟨-, -, rfl⟩ | ⟨-, hp, r, i, u, ha, hd, hrun⟩ | ⟨-, -, rfl, -⟩
  · obtain ⟨-, -, rfl⟩ := takeReset_next hreset
    exact configuredLedger_of_noHandle rfl hs.2
  · exact hs
  · have hu : u.block = s.block := (acceptRequest_frame ha).1
    have hsu := acceptRequest_keeps_configuredLedger (s := clearResponse s) hs ha
    exact exec_request_keeps_configuredLedger (by rw [hu, hp]) (by rw [hu]; exact hw) hsu hd hrun
  · exact completeRead_keeps_configuredLedger (s := clearResponse s) hs

end Sys2Proof.Machine

namespace Sys2Proof.Machine

/-! ## The command encoder: channels, their frames, and the wire command -/

/-! ### Channels and their 3-bit fields -/

/-- R41: a valid channel loses nothing in its 3-bit field. -/
theorem toNat_channelField_of_valid {ch : Int} (h : valid ch = true) : ((channelField ch).toNat : Int) = ch := by
  obtain ⟨h0, h7⟩ := (valid_iff ch).1 h
  rw [channelField, BitVec.toNat_ofInt]
  omega

theorem toNat_channelField_of_le {ch : Nat} (h : ch ≤ 7) : (channelField ch).toNat = ch := by
  have hv : valid ch = true := (valid_iff ch).2 (by omega)
  exact Int.ofNat_inj.1 (toNat_channelField_of_valid hv)

/-- Each 3-bit field is the field of its own number. -/
@[simp] theorem channelField_toNat (c : ChannelField) : channelField c.toNat = c := by
  rw [channelField, BitVec.ofInt_natCast, BitVec.ofNat_toNat, BitVec.setWidth_eq]

/-! ### ENC and CHAN -/

/-- R52 on numbers, for each 3-bit field. -/
theorem toNat_enc_bytes (c : ChannelField) :
    (enc c).byte0.toNat = 6 ||| ((c.toNat &&& 4) >>> 2) ∧ (enc c).byte1.toNat = (c.toNat &&& 3) <<< 6 ∧
      (enc c).byte2.toNat = 0 := by
  revert c; decide

/-- R53 on numbers: the fixed bits of CMD24, and the field at bit 14. -/
theorem toNat_commandWord (c : ChannelField) : (commandWord c).toNat = 0x060000 ||| (c.toNat <<< 14) := by
  revert c; decide

/-- R54, bit by bit: bit 2 of CHAN is bit 0 of byte0, and bits 1..0 are bits 7..6 of byte1. -/
theorem chan_getLsbD (f : Frame) {i : Nat} (hi : i < 3) :
    (chan f).getLsbD i = if i = 2 then f.byte0.getLsbD 0 else f.byte1.getLsbD (6 + i) := by
  interval_cases i <;> simp [chan]

/-- R54: CHAN of a word's bytes is the word's bits 16..14. -/
@[simp] theorem chan_frameOfWord (w : FrameWord) : chan (frameOfWord w) = w.extractLsb' 14 3 := by
  apply BitVec.eq_of_getLsbD_eq
  intro i hi
  rw [chan_getLsbD _ hi]
  split
  · next h => simp [h, frameOfWord]
  · next h => simp [frameOfWord, hi, show 6 + i < 8 by omega, show 8 + (6 + i) = 14 + i by omega]

/-- R54: CHAN inverts ENC. -/
@[simp] theorem chan_enc (c : ChannelField) : chan (enc c) = c := by
  rw [← frameOfWord_frameWord (enc c), chan_frameOfWord, frameWord_enc, extractLsb'_commandWord]

/-- R54: ENC inverts CHAN on command frames. -/
theorem frameWord_enc_chan {w : FrameWord} (h : isCommandFrame w = true) :
    frameWord (enc (chan (frameOfWord w))) = w := by
  rw [frameWord_enc, chan_frameOfWord, commandWord_extractLsb' h]

/-- R55 on 3-bit fields: CHAN recovers the field. -/
theorem enc_injective : Function.Injective enc := Function.LeftInverse.injective chan_enc

/-! ### The wire command -/

/-- R57: on an Idle block the wire command is the READ of its channel (log 9). -/
theorem exec_mcp3208SeRead_of_idle (c : ChannelField) {s : State} (hp : s.block.phase = .idle) :
    exec (.mcp3208SeRead c) s = exec (.read c.toNat) s := by
  simp [exec, execMcp3208SeRead, execRead, whenIdle_idle hp, hp]

/-- R66: a READ of a Closed block only fails, whatever its channel. -/
theorem exec_read_of_closed (ch : Int) {s : State} (hp : s.block.phase = .idle) (hl : s.block.life = .closed) :
    exec (.read ch) s = .next (respond (.err .transportUnavailable) s) := by
  simp [exec, execRead, whenIdle_idle hp, issueRead, hl]

/-- R57, R64: in PHASE Busy the fetch gives the wire command of the channel in TX. -/
theorem fetch_commandInFlight {H E : Type} {n : Nat} {s : State.Of H E n} {f : FrameWord}
    (hp : s.block.phase = .busy) (htx : s.block.tx = some f) (hf : isCommandFrame f = true) :
    fetch s = .next (some (.mcp3208SeRead (chan (frameOfWord f))), s) := by
  simp [fetch, hp, htx, decodeCommand_of_isCommandFrame hf]

/-! ### The statements -/

/-- Settles O12: both laws go through bits 16..14 of the word, and a command frame is ENC of its own CHAN. -/
theorem channelRecovery : Obligations.ChannelRecovery := by
  refine ⟨fun c => ⟨chan_enc c, isCommandFrame_frameWord_enc c⟩, fun w => frameWord_enc_chan, fun w => ⟨?_, ?_⟩,
    chan_frameOfWord⟩
  · intro h
    exact ⟨chan (frameOfWord w), (frameWord_enc_chan h).symm⟩
  · rintro ⟨c, rfl⟩
    exact isCommandFrame_frameWord_enc c

/-- Settles O8: the check is a range, and the field of a number in it is that number. -/
theorem channelValidity : Obligations.ChannelValidity := by
  refine fun ch => ⟨?_, toNat_channelField_of_valid⟩
  rw [valid_iff]
  omega

/-- Settles O10: the channel is its own field, whose bytes are R52's. -/
theorem encoderByteFormulas : Obligations.EncoderByteFormulas := by
  intro ch hch
  have h := toNat_enc_bytes (channelField ch)
  rwa [toNat_channelField_of_le hch] at h

/-- Settles O11: R52's bytes are R39's word, whose value is R53's. -/
theorem encoderWordForm : Obligations.EncoderWordForm := by
  intro ch hch
  rw [frameWord_enc, toNat_commandWord, toNat_channelField_of_le hch]

/-- Settles O13: equal frames come from equal fields, and a valid channel is its field's number. -/
theorem encoderInjective : Obligations.EncoderInjective := by
  intro ch ch' hv hv' h
  have hfield : channelField ch = channelField ch' := enc_injective h
  rw [← toNat_channelField_of_valid hv, ← toNat_channelField_of_valid hv', hfield]

/-- Settles O27: on an Idle block the wire command is the READ of its channel, which is a valid one. -/
theorem wireCommandEmission : Obligations.WireCommandEmission := by
  intro c s hp
  rw [exec_mcp3208SeRead_of_idle c hp]
  refine ⟨fun h hl hh => ?_, fun hl => exec_read_of_closed _ hp hl⟩
  rw [exec_read_of_opened hp hl hh (valid_toNat c), channelField_toNat, issueTransfer, frameOfWord_frameWord]

/-- Settles O37: the step runs what the fetch gives, the wire command of TX's channel. -/
theorem stepRunsTheCommandInFlight : Obligations.StepRunsTheCommandInFlight := by
  intro s f hr hp htx hf
  exact step_of_fetch hr (fetch_commandInFlight (s := clearResponse s) hp htx hf)

end Sys2Proof.Machine

namespace Sys2Proof.Machine

/-! ## The response decoder: the Sample, and the 12 bits it leaves out -/

/-! ### DEC on numbers -/

/-- R59: byte1's low nibble stands above byte2. -/
theorem toNat_dec (r : Frame) : (dec r).toNat = (r.byte1 &&& 0x0F#8).toNat <<< 8 ||| r.byte2.toNat := by
  have nibble : (r.byte1 &&& 0x0F#8).toNat ≤ 15 := by
    rw [BitVec.toNat_and]
    exact Nat.and_le_right
  have fits : (r.byte1 &&& 0x0F#8).toNat <<< 8 < 2 ^ 12 := by
    rw [Nat.shiftLeft_eq]
    omega
  rw [dec, BitVec.toNat_or, BitVec.toNat_shiftLeft, BitVec.toNat_setWidth_of_le (by decide),
    BitVec.toNat_setWidth_of_le (by decide), Nat.mod_eq_of_lt fits]

/-- R59 as a sum: the nibble and byte2 do not overlap. -/
theorem toNat_dec_eq_add (r : Frame) :
    (dec r).toNat = (r.byte1 &&& 0x0F#8).toNat * 256 + r.byte2.toNat := by
  rw [toNat_dec, ← Nat.shiftLeft_add_eq_or_of_lt r.byte2.isLt, Nat.shiftLeft_eq]

/-! ### The frames of a Sample -/

/-- R42: the Sample is the response word's low half. -/
theorem dec_eq_extractLsb' (r : Frame) : dec r = (frameWord r).extractLsb' 0 12 := by
  apply BitVec.eq_of_getLsbD_eq
  intro i hi
  rw [dec_getLsbD r i hi, BitVec.getLsbD_extractLsb', Nat.zero_add, decide_eq_true hi, Bool.true_and]

/-- The frame whose word has `high` above the Sample `v`; `high` stands for the 12 bits DEC ignores (R61). -/
def frameOfHalves (v : Sample) (high : BitVec 12) : Frame := frameOfWord (high ++ v)

@[simp] theorem frameWord_frameOfHalves (v : Sample) (high : BitVec 12) :
    frameWord (frameOfHalves v high) = high ++ v := frameWord_frameOfWord _

@[simp] theorem dec_frameOfHalves (v : Sample) (high : BitVec 12) : dec (frameOfHalves v high) = v := by
  rw [dec_eq_extractLsb', frameWord_frameOfHalves, BitVec.extractLsb'_append_eq_right]

/-- Each frame is made of its own halves. -/
theorem frameOfHalves_dec (r : Frame) : frameOfHalves (dec r) ((frameWord r).extractLsb' 12 12) = r := by
  rw [frameOfHalves, dec_eq_extractLsb', BitVec.extractLsb'_append_extractLsb'_eq_extractLsb' (by decide),
    BitVec.extractLsb'_eq_self, frameOfWord_frameWord]

/-- Frames of one Sample with different high halves differ. -/
theorem frameOfHalves_injective (v : Sample) : Function.Injective (frameOfHalves v) := by
  intro m n h
  have words : m ++ v = n ++ v := by
    rw [← frameWord_frameOfHalves, h, frameWord_frameOfHalves]
  exact (BitVec.append_left_inj v).1 words

/-- R60: the frames of a Sample are those with it as low half. -/
theorem dec_eq_iff (r : Frame) (v : Sample) : dec r = v ↔ ∃ high, frameOfHalves v high = r := by
  constructor
  · rintro rfl
    exact ⟨_, frameOfHalves_dec r⟩
  · rintro ⟨high, rfl⟩
    exact dec_frameOfHalves v high

/-! ### The statements -/

/-- Settles O15: a Sample's frames are numbered by the high half of their word. -/
theorem everySampleComesFromFourThousandFrames : Obligations.EverySampleComesFromFourThousandFrames := by
  refine ⟨fun r => Nat.le_of_lt_succ (dec r).isLt, fun v hv => ?_⟩
  refine ⟨frameOfHalves (BitVec.ofNat 12 v), frameOfHalves_injective _, fun r => ?_⟩
  rw [← dec_eq_iff, ← BitVec.toNat_inj, BitVec.toNat_ofNat, Nat.mod_eq_of_lt (by omega)]

/-- Settles O16: as byte2 is below 256, the sum determines the nibble and byte2. -/
theorem sampleDependsOnTwelveBits : Obligations.SampleDependsOnTwelveBits := by
  intro r r'
  have h2 := r.byte2.isLt
  have h2' := r'.byte2.isLt
  rw [← BitVec.toNat_inj, toNat_dec_eq_add, toNat_dec_eq_add, ← BitVec.toNat_inj, ← BitVec.toNat_inj]
  omega

/-- Settles O14: R59's mask is the same on numbers as on bytes. -/
theorem decoderFormula : Obligations.DecoderFormula := by
  intro r
  rw [toNat_dec, BitVec.toNat_and]
  rfl

end Sys2Proof.Machine

namespace Sys2Proof.Machine

/-! ## The frame sequencer: the steps of a READ, and what is held meanwhile -/

section

variable {H E : Type} {n : Nat} {s t : State.Of H E n}

/-! ### What a result and an acceptance do to the agents -/

/-- R23: a result takes no request from the port. -/
@[simp] theorem receive_pending (r : Result.Of E) (q : Requester.Of E n) : (q.receive r).pending = q.pending := by
  cases hw : q.waiting <;> simp [hw]

/-- R24: no agent waits after a result. -/
@[simp] theorem receive_waiting (r : Result.Of E) (q : Requester.Of E n) : (q.receive r).waiting = false := by
  cases hw : q.waiting <;> simp [hw]

theorem respond_countP_waiting (r : Result.Of E) (s : State.Of H E n) :
    (respond r s).requesters.countP (fun q => q.waiting) = 0 := by
  simp [List.countP_eq_zero]

/-- R65, R90: the agent whose request is accepted now waits too. -/
theorem acceptRequest_countP_waiting {r : Request.Of n} (h : acceptRequest s = some (r, t)) :
    t.requesters.countP (fun q => q.waiting) = s.requesters.countP (fun q => q.waiting) + 1 := by
  obtain ⟨k, q, d, hq, hw, hp, rfl⟩ := acceptRequest_some h
  obtain ⟨rest, hp⟩ := List.head?_eq_some_iff.1 hp
  obtain ⟨hk, hqk⟩ := List.getElem?_eq_some_iff.1 hq
  dsimp only
  rw [modify_accepted hq hp, List.countP_set hk]
  simp [hqk, hw]

/-- R100: nobody presents a request, so the port accepts none. -/
theorem acceptRequest_eq_none (h : ∀ q ∈ s.requesters, q.waiting = true ∨ q.pending = []) :
    acceptRequest s = none := by
  simp [acceptRequest, presentedRequests_eq_nil h, arbitrate]

theorem fetch_nothing (hp : s.block.phase = .idle) (ha : acceptRequest s = none) : fetch s = .next (none, s) := by
  simp [fetch, hp, ha]

/-! ### The completion step -/

/-- R71: without an answer only the draw is used. -/
theorem completeRead_of_no_answer [Inhabited E] {d : Draws.Of H E}
    (h : s.draws.transferAnswer s.block.handle s.block.tx = (none, d)) : completeRead s = { s with draws := d } := by
  simp [completeRead, h]

theorem completeRead_pending [Inhabited E] (s : State.Of H E n) :
    (completeRead s).requesters.map (fun q => q.pending) = s.requesters.map (fun q => q.pending) := by
  rcases completeRead_cases s with ⟨a, d, -, ht⟩ | ⟨d, -, ht⟩
  · simp [ht]
  · rw [ht]

/-- A completion is observed as an answer and a result, never as an acceptance. -/
theorem completeRead_count_accepted [Inhabited E] [DecidableEq H] [DecidableEq E] (s : State.Of H E n)
    (r : Request.Of n) : (completeRead s).trace.count (.accepted r) = s.trace.count (.accepted r) := by
  rcases completeRead_cases s with ⟨a, d, -, ht⟩ | ⟨d, -, ht⟩
  · simp [ht]
  · rw [ht]

/-! ### LIFE, HANDLE and CFG -/

/-- The registers an accepted OPEN or CLOSE writes (R76, R79). -/
def Block.Of.lifecycle (b : Block.Of H) : Life × Option H × Option OpenConfig := (b.life, b.handle, b.cfg)

theorem lifecycle_ne {b b' : Block.Of H} (h : b.life ≠ b'.life ∨ b.handle ≠ b'.handle ∨ b.cfg ≠ b'.cfg) :
    b.lifecycle ≠ b'.lifecycle := by
  simpa only [Block.Of.lifecycle, ne_eq, Prod.mk.injEq, not_and_or] using h

/-- R72: the issue of a READ. -/
theorem issueRead_lifecycle {ch : Int} (h : issueRead ch s = .next t) : t.block.lifecycle = s.block.lifecycle := by
  rcases issueRead_next h with ⟨-, rfl⟩ | ⟨-, -, rfl⟩ | ⟨-, -, k, -, rfl⟩ <;> rfl

/-- R72: the completion of a READ. -/
theorem completeRead_lifecycle [Inhabited E] (s : State.Of H E n) :
    (completeRead s).block.lifecycle = s.block.lifecycle := by
  rcases completeRead_cases s with ⟨a, d, -, ht⟩ | ⟨d, -, ht⟩
  · rw [ht]
    rfl
  · rw [ht]

/-! ### One agent waits while Busy: `OneWaits` -/

theorem oneWaits_of_idle (hp : s.block.phase = .idle) (hq : s.requesters.countP (fun q => q.waiting) = 0) :
    s.OneWaits :=
  ⟨fun _ => hq, fun hbusy => by simp [hp] at hbusy⟩

theorem oneWaits_of_busy (hp : s.block.phase = .busy) (hq : s.requesters.countP (fun q => q.waiting) = 1) :
    s.OneWaits :=
  ⟨fun hidle => by simp [hp] at hidle, fun _ => hq⟩

/-- A result given on an Idle block leaves nobody waiting, whoever did before. -/
theorem respond_oneWaits (r : Result.Of E) (hp : s.block.phase = .idle) : (respond r s).OneWaits :=
  oneWaits_of_idle hp (respond_countP_waiting r s)

theorem openTransport_oneWaits [Inhabited H] [Inhabited E] (cfg : OpenConfig) (hp : s.block.phase = .idle) :
    (openTransport cfg s).OneWaits := by
  rcases openTransport_cases cfg s with ⟨e, -, ht⟩ | ⟨h, e, -, -, ht⟩ | ⟨h, -, -, ht⟩ <;> rw [ht] <;>
    exact respond_oneWaits _ hp

/-- R68: the agent whose READ is issued goes on waiting. -/
theorem issueRead_oneWaits {ch : Int} (hp : s.block.phase = .idle)
    (hq : s.requesters.countP (fun q => q.waiting) = 1) (h : issueRead ch s = .next t) : t.OneWaits := by
  rcases issueRead_next h with ⟨-, rfl⟩ | ⟨-, -, rfl⟩ | ⟨-, -, k, -, rfl⟩
  · exact respond_oneWaits _ hp
  · exact respond_oneWaits _ hp
  · exact oneWaits_of_busy rfl hq

theorem closeTransport_oneWaits (hp : s.block.phase = .idle) (h : closeTransport s = .next t) : t.OneWaits := by
  rcases closeTransport_next h with ⟨-, rfl⟩ | ⟨-, k, -, rfl⟩ <;> exact respond_oneWaits _ hp

theorem completeRead_keeps_oneWaits [Inhabited E] (hs : s.OneWaits) : (completeRead s).OneWaits := by
  rcases completeRead_cases s with ⟨a, d, -, ht⟩ | ⟨d, -, ht⟩ <;> rw [ht]
  · exact respond_oneWaits _ rfl
  · exact hs

/-- R19, R48: a Busy block has a command frame in TX. -/
theorem exists_commandFrame_of_busy {b : Block.Of H} (hw : b.Wf) (hp : b.phase = .busy) :
    ∃ f, b.tx = some f ∧ isCommandFrame f = true := by
  obtain ⟨-, -, htx, -, hframe⟩ := hw
  obtain ⟨f, hf⟩ := Option.isSome_iff_exists.1 (htx.2 hp)
  exact ⟨f, hf, by simpa [hf] using hframe⟩

end

/-! ### Single instructions -/

/-- Settles O18: a command's pattern is read off each channel; the Sample is the word's low 12 bits, the last on the
wire. -/
theorem serialOrderOfOneExchange : Obligations.SerialOrderOfOneExchange := by
  constructor
  · decide
  · intro r j hj
    rw [wireBits_getElem? r (by omega), dec_getLsbD r _ (by omega), show 23 - (12 + j) = 11 - j by omega]

/-- Settles O20: the closed check comes first, whatever the operand. -/
theorem readOnClosedBlock : Obligations.ReadOnClosedBlock :=
  fun ch _ hp hl => exec_read_of_closed ch hp hl

/-- R67: on an Open block the range check refuses an invalid channel before the handle is looked at. -/
theorem exec_read_of_not_valid {ch : Int} {s : State} (hp : s.block.phase = .idle) (hl : s.block.life = .opened)
    (hv : valid ch = false) : exec (.read ch) s = .next (respond (.err .channelOutOfRange) s) := by
  simp [exec, execRead, whenIdle_idle hp, issueRead, hl, hv]

/-- Settles O21: a channel below 0 or above 7 is not valid. -/
theorem readOutOfRange : Obligations.ReadOutOfRange := by
  intro ch s hp hl hch
  have hv : valid ch = false := by
    rw [Bool.eq_false_iff, ne_eq, valid_iff]
    omega
  exact exec_read_of_not_valid hp hl hv

/-- Settles O22: the bytes sent are the frame's word taken apart (`issueTransfer_trace`). -/
theorem readIssuesOneTransfer : Obligations.ReadIssuesOneTransfer := by
  rintro ch h _ s hp hl hh h0 h7 rfl
  exact exec_read_of_opened hp hl hh ((valid_iff ch).2 ⟨h0, h7⟩)

/-- Settles O23: three bytes are a Response Frame, and its result is DEC of it. -/
theorem readCompletesWithItsSample : Obligations.ReadCompletesWithItsSample := by
  intro c b0 b1 b2 d s hp hans
  rw [exec_mcp3208SeRead_of_busy c hp, completeRead_of_answer hans]
  rfl

/-- Settles O24: the error is the answer's result, and the Idle block it leaves issues a READ like any other. -/
theorem transferErrorFailsTheRead : Obligations.TransferErrorFailsTheRead := by
  intro c e d s hp hans
  refine ⟨_, exec_mcp3208SeRead_of_busy c hp, by rw [completeRead_of_answer hans]; rfl, ?_⟩
  intro ch h h0 h7 hl hh
  rw [completeRead_of_answer hans]
  refine ⟨_, exec_read_of_opened rfl hl hh ((valid_iff ch).2 ⟨h0, h7⟩), rfl, rfl, ?_⟩
  rw [issueTransfer_trace, frameOfWord_frameWord, transfersOf]

/-- Settles O26: the completion step without an answer. -/
theorem unansweredTransferStaysBusy : Obligations.UnansweredTransferStaysBusy := by
  intro c d s hp hans
  rw [exec_mcp3208SeRead_of_busy c hp, completeRead_of_no_answer hans]

/-- Settles O33: the three host requests have their effect only in PHASE Idle (`whenIdle`). -/
theorem requestsAreHeldWhileBusy : Obligations.RequestsAreHeldWhileBusy :=
  fun _ hp =>
    ⟨fun _ => by rw [exec, execOpenReq, whenIdle_busy hp],
    fun _ => by rw [exec, execRead, whenIdle_busy hp],
    by rw [exec, execClose, whenIdle_busy hp]⟩

/-! ### Single steps -/

/-- A step in PHASE Busy without a reset is the completion step. -/
theorem step_next_of_busy {s t : State} (hr : s.resetAsserted = false) (hp : s.block.phase = .busy)
    (h : step s = .next t) : t = completeRead (clearResponse s) := by
  rcases step_next h with ⟨hr', -⟩ | ⟨-, hp', -⟩ | ⟨-, hp', -⟩ | ⟨-, -, ht, -⟩
  · simp [hr] at hr'
  · simp [hp] at hp'
  · simp [hp] at hp'
  · exact ht

/-- Settles O44: a Busy step is the completion step, which leaves every agent's requests and accepts none. -/
theorem heldRequestsStayAtThePort : Obligations.HeldRequestsStayAtThePort := by
  intro s t hr hp h
  rw [step_next_of_busy hr hp h]
  exact ⟨completeRead_pending (clearResponse s), completeRead_count_accepted (clearResponse s)⟩

/-- R72: an accepted request that writes LIFE, HANDLE or CFG is an OPEN or a CLOSE. -/
theorem exec_request_writes_lifecycle {s t : State} {r : Request} {i : Instr} (hp : s.block.phase = .idle)
    (hd : decodeRequest r = .ok i) (h : exec i s = .next t) (hne : t.block.lifecycle ≠ s.block.lifecycle) :
    requestOp r.word = 1#4 ∨ requestOp r.word = 3#4 := by
  rcases decodeRequest_ok hd with ⟨hop, -⟩ | ⟨-, rfl⟩ | ⟨hop, -⟩
  · exact .inl hop
  · rw [exec, execRead, whenIdle_idle hp] at h
    exact absurd (issueRead_lifecycle h) hne
  · exact .inr hop

/-- Settles O45: neither step of a READ writes the three registers, and a step that waits writes none. -/
theorem onlyOpenAndCloseWriteTheLifecycle : Obligations.OnlyOpenAndCloseWriteTheLifecycle := by
  intro s t hr h hne
  have hne : t.block.lifecycle ≠ s.block.lifecycle := lifecycle_ne hne
  rcases step_next h with ⟨hr', -⟩ | ⟨-, -, rfl⟩ | ⟨-, hp, r, i, u, ha, hd, hrun⟩ | ⟨-, -, rfl, -⟩
  · simp [hr] at hr'
  · exact absurd rfl hne
  · have hu : u.block = s.block := (acceptRequest_frame ha).1
    exact ⟨hp, r, u, ha, exec_request_writes_lifecycle (by rw [hu, hp]) hd hrun (by rwa [hu])⟩
  · exact absurd (completeRead_lifecycle (clearResponse s)) hne

/-- An accepted request, whose agent alone waits, gets its result or leaves the block Busy. -/
theorem exec_request_oneWaits {s t : State} {r : Request} {i : Instr} (hp : s.block.phase = .idle)
    (hq : s.requesters.countP (fun q => q.waiting) = 1) (hd : decodeRequest r = .ok i) (h : exec i s = .next t) :
    t.OneWaits := by
  rcases exec_request_next hp hd h with ⟨cfg, -, -, rfl⟩ | ⟨ch, -, hread⟩ | ⟨-, hclose⟩
  · exact openTransport_oneWaits cfg hp
  · exact issueRead_oneWaits hp hq hread
  · exact closeTransport_oneWaits hp hclose

/-- Settles O56: acceptance makes one agent wait, and the result or PHASE Busy follows in the same step. -/
theorem stepKeepsOneAgentWaiting : Obligations.StepKeepsOneAgentWaiting := by
  intro s t hs h
  rcases step_next h with ⟨-, hreset⟩ | ⟨-, -, rfl⟩ | ⟨-, hp, r, i, u, ha, hd, hrun⟩ | ⟨-, -, rfl, -⟩
  · obtain ⟨-, hp, rfl⟩ := takeReset_next hreset
    exact oneWaits_of_idle rfl (hs.1 hp)
  · exact hs
  · have hu : u.block = s.block := (acceptRequest_frame ha).1
    have hq := acceptRequest_countP_waiting ha
    rw [clearResponse_requesters, hs.1 hp] at hq
    exact exec_request_oneWaits (by rw [hu, hp]) hq hd hrun
  · exact completeRead_keeps_oneWaits (s := clearResponse s) hs

/-! ### Runs -/

/-- R71: a step of a Busy block whose next listed draw is no answer. -/
theorem step_of_no_answer {s : State} {later : List (Option TransferAnswer)} (hw : s.block.Wf)
    (hp : s.block.phase = .busy) (hr : s.resetAsserted = false) (hd : s.draws.transfer = none :: later) :
    step s = .next { s with response := none, draws := { s.draws with transfer := later } } := by
  obtain ⟨f, htx, hf⟩ := exists_commandFrame_of_busy hw hp
  rw [step_of_busy hr hp htx hf, completeRead_of_no_answer (s := clearResponse s) (transferAnswer_of_listed hd)]
  rfl

/-- Settles O48, by induction on the number of steps: each uses one draw and leaves the block Busy. -/
theorem silentTransportHangsTheBlock : Obligations.SilentTransportHangsTheBlock := by
  intro n
  induction n with
  | zero =>
    intro s later hw hp hr hd
    exact run_succ (step_of_no_answer hw hp hr hd)
  | succ n ih =>
    intro s later hw hp hr hd
    exact (run_succ (step_of_no_answer hw hp hr hd)).trans (ih _ later hw hp hr rfl)

/-- R100: an Idle block whose port presents nothing waits (log 22). -/
theorem step_of_nothing_presented {s : State} (hr : s.resetAsserted = false) (hp : s.block.phase = .idle)
    (hq : ∀ q ∈ s.requesters, q.waiting = true ∨ q.pending = []) : step s = .next (clearResponse s) := by
  have hfetch : fetch (clearResponse s) = .next (none, clearResponse s) :=
    fetch_nothing (s := clearResponse s) hp (acceptRequest_eq_none hq)
  simp [step, stepWith, hr, hfetch]

/-- R74: at the end of a run no agent has a request left to present. -/
theorem step_of_ended {s : State} (hr : s.resetAsserted = false) (hs : s.Ended) : step s = .next (clearResponse s) := by
  obtain ⟨hq, hp⟩ := hs
  exact step_of_nothing_presented hr hp fun q hmem => .inr (hq q hmem).1

/-- Settles O60, by induction on the number of steps: the first clears the response port, the others change nothing. -/
theorem endedRunStaysEnded : Obligations.EndedRunStaysEnded := by
  intro n
  induction n with
  | zero =>
    intro s hr hs
    exact run_succ (step_of_ended hr hs)
  | succ n ih =>
    intro s hr hs
    exact (run_succ (step_of_ended hr hs)).trans (ih (clearResponse s) hr hs)

/-- The state after a READ of a Closed block: its request was accepted and has failed. -/
def afterFailedRead (r : Request) (rest : List Request) (results : List Result) (s : State) : State :=
  { s with
    response := some (.err .transportUnavailable)
    requesters := [⟨rest, false, .err .transportUnavailable :: results⟩]
    trace := .respond (.err .transportUnavailable) :: .accepted r :: s.trace }

/-- R66: acceptance and failure are one step. -/
theorem step_fails_read {s : State} {r : Request} {rest : List Request} {results : List Result}
    (hop : requestOp r.word = 2#4) (hl : s.block.life = .closed) (hp : s.block.phase = .idle)
    (hr : s.resetAsserted = false) (hq : s.requesters = [⟨r :: rest, false, results⟩]) :
    step s = .next (afterFailedRead r rest results s) := by
  have ha := acceptRequest_single (s := clearResponse s) hq
  rw [step_of_fetch hr (fetch_accepted hp ha (decodeRequest_read hop))]
  exact exec_read_of_closed _ hp hl

/-- Settles O50, by induction on the requests: each READ takes one step, which leaves the block Closed and Idle. -/
theorem readsOfAClosedBlockAllFail : Obligations.ReadsOfAClosedBlockAllFail := by
  intro requests
  induction requests with
  | nil =>
    intro results s _ _ _ _ hq
    exact ⟨s, rfl, rfl, hq, rfl⟩
  | cons r rest ih =>
    intro results s hops hl hp hr hq
    obtain ⟨hop, hops⟩ := List.forall_mem_cons.1 hops
    obtain ⟨t, hrun, hblock, hreq, htrace⟩ := ih _ (afterFailedRead r rest results s) hops hl hp hr rfl
    refine ⟨t, (run_succ (step_fails_read hop hl hp hr hq)).trans hrun, hblock, ?_, htrace⟩
    rw [hreq, List.length_cons, List.replicate_succ', List.append_assoc, List.singleton_append]

end Sys2Proof.Machine

namespace Sys2Proof.Machine

/-! ## The lifecycle: OPEN and CLOSE, the release ledger, and where a step stops -/

section

variable {H E : Type} {n : Nat} {s t u : State.Of H E n}

/-! ### OPEN and CLOSE, an equation for each case -/

theorem callOpen_of_answer [Inhabited H] [Inhabited E] {cfg : OpenConfig} {a : OpenAnswer.Of H E} {d : Draws.Of H E}
    (h : s.draws.openAnswer cfg.bus cfg.device = (a, d)) :
    callOpen cfg s = (a, { s with draws := d, trace := .tOpen cfg.bus cfg.device a :: s.trace }) := by
  simp [callOpen, h]

/-- R17: TConfigure is passed mode 0 and MSB-first order. -/
theorem callConfigure_of_answer [Inhabited E] {k : H} {cfg : OpenConfig} {a : ConfigureAnswer.Of E} {d : Draws.Of H E}
    (h : s.draws.configureAnswer k cfg.speedHz = (a, d)) :
    callConfigure k cfg s =
      (a, { s with draws := d, trace := .tConfigure k cfg.speedHz 0 .msbFirst a :: s.trace }) := by
  simp only [callConfigure, h]
  rfl

/-- R77 (a): TOpen fails, and there is no handle to close. -/
theorem openTransport_of_open_err [Inhabited H] [Inhabited E] {cfg : OpenConfig} {e : E}
    (ho : callOpen cfg s = (.err e, t)) : openTransport cfg s = respond (.err .transportUnavailable) t := by
  simp [openTransport, ho]

/-- R77 (b): TConfigure fails, and the handle is closed again. -/
theorem openTransport_of_configure_err [Inhabited H] [Inhabited E] {cfg : OpenConfig} {k : H} {e : E}
    (ho : callOpen cfg s = (.ok k, t)) (hc : callConfigure k cfg t = (.err e, u)) :
    openTransport cfg s = respond (.err .transportUnavailable) (callClose k u) := by
  simp [openTransport, ho, hc]

/-- R76: both calls succeed. -/
theorem openTransport_of_ok [Inhabited H] [Inhabited E] {cfg : OpenConfig} {k : H}
    (ho : callOpen cfg s = (.ok k, t)) (hc : callConfigure k cfg t = (.ok, u)) :
    openTransport cfg s = respond (.ok .none) (acquire k cfg u) := by
  simp [openTransport, ho, hc]

/-- R80. -/
theorem closeTransport_of_closed (hl : s.block.life = .closed) :
    closeTransport s = .next (respond (.ok .none) s) := by
  simp [closeTransport, hl]

/-- R79. -/
theorem closeTransport_of_handle {k : H} (hl : s.block.life = .opened) (hh : s.block.handle = some k) :
    closeTransport s = .next (respond (.ok .none) (release (callClose k s))) := by
  simp [closeTransport, hl, hh]

/-! ### What a block that meets `Wf` answers -/

/-- R15: an Open block holds a handle. -/
theorem exists_handle_of_opened {b : Block.Of H} (hw : b.Wf) (hl : b.life = .opened) : ∃ k, b.handle = some k := by
  obtain ⟨hhandle, -⟩ := hw
  exact Option.isSome_iff_exists.1 (hhandle.2 hl)

/-- R66 to R68: READ's issue stops only for want of a handle. -/
theorem issueRead_answers (ch : Int) (hw : s.block.Wf) : ∃ t, issueRead ch s = .next t := by
  cases h : issueRead ch s with
  | next t => exact ⟨t, rfl⟩
  | fault f =>
    obtain ⟨hl, hnone, -⟩ := issueRead_fault h
    obtain ⟨k, hk⟩ := exists_handle_of_opened hw hl
    simp [hnone] at hk
  | refused why => exact absurd h issueRead_not_refused

/-- R79, R80: CLOSE stops only for want of a handle. -/
theorem closeTransport_answers (hw : s.block.Wf) : ∃ t, closeTransport s = .next t := by
  cases hl : s.block.life with
  | closed => exact ⟨_, closeTransport_of_closed hl⟩
  | opened =>
    obtain ⟨k, hk⟩ := exists_handle_of_opened hw hl
    exact ⟨_, closeTransport_of_handle hl hk⟩

/-! ### The reset input -/

/-- R99. -/
theorem takeReset_warm (h : s.block.life = .opened ∨ s.block.phase = .busy) : takeReset s = .refused .warmReset :=
  if_pos h

theorem takeReset_powerOn (h : ¬ (s.block.life = .opened ∨ s.block.phase = .busy)) :
    takeReset s = .next { s with block := Block.reset, response := none, resetAsserted := false } :=
  if_neg h

/-! ### The release ledger: `ReleaseLedger`

TOpen adds to one side of the ledger, TClose and HANDLE to the other. -/

section

variable [DecidableEq H]

@[simp] theorem timesHeld_none (h : H) : timesHeld h none = 0 := rfl
@[simp] theorem timesHeld_some (h k : H) : timesHeld h (some k) = if k = h then 1 else 0 := by simp [timesHeld]

@[simp] theorem timesReturned_tOpen_ok (h k : H) (bus device : Nat) (older : List (Event.Of H E n)) :
    timesReturned h (.tOpen bus device (.ok k) :: older) = (if k = h then 1 else 0) + timesReturned h older := rfl
@[simp] theorem timesReturned_tOpen_err (h : H) (bus device : Nat) (e : E) (older : List (Event.Of H E n)) :
    timesReturned h (.tOpen bus device (.err e) :: older) = timesReturned h older := rfl
@[simp] theorem timesReturned_tConfigure (h k : H) (speed mode : Nat) (order : BitOrder) (a : ConfigureAnswer.Of E)
    (older : List (Event.Of H E n)) :
    timesReturned h (.tConfigure k speed mode order a :: older) = timesReturned h older := rfl
@[simp] theorem timesReturned_tClose (h k : H) (older : List (Event.Of H E n)) :
    timesReturned h (.tClose k :: older) = timesReturned h older := rfl
@[simp] theorem timesReturned_respond (h : H) (r : Result.Of E) (older : List (Event.Of H E n)) :
    timesReturned h (.respond r :: older) = timesReturned h older := rfl

@[simp] theorem timesReleased_tOpen (h : H) (bus device : Nat) (a : OpenAnswer.Of H E) (older : List (Event.Of H E n)) :
    timesReleased h (.tOpen bus device a :: older) = timesReleased h older := rfl
@[simp] theorem timesReleased_tConfigure (h k : H) (speed mode : Nat) (order : BitOrder) (a : ConfigureAnswer.Of E)
    (older : List (Event.Of H E n)) :
    timesReleased h (.tConfigure k speed mode order a :: older) = timesReleased h older := rfl
@[simp] theorem timesReleased_tClose (h k : H) (older : List (Event.Of H E n)) :
    timesReleased h (.tClose k :: older) = (if k = h then 1 else 0) + timesReleased h older := rfl
@[simp] theorem timesReleased_respond (h : H) (r : Result.Of E) (older : List (Event.Of H E n)) :
    timesReleased h (.respond r :: older) = timesReleased h older := rfl

theorem acceptRequest_keeps_releaseLedger {r : Request.Of n} (hs : s.ReleaseLedger)
    (h : acceptRequest s = some (r, t)) : t.ReleaseLedger := by
  obtain ⟨_, _, _, _, _, _, rfl⟩ := acceptRequest_some h
  exact hs

theorem respond_keeps_releaseLedger (r : Result.Of E) (hs : s.ReleaseLedger) : (respond r s).ReleaseLedger :=
  hs

theorem issueTransfer_keeps_releaseLedger (k : H) (f : FrameWord) (hs : s.ReleaseLedger) :
    (issueTransfer k f s).ReleaseLedger :=
  hs

theorem endTransfer_keeps_releaseLedger (a : TransferAnswer.Of E) (hs : s.ReleaseLedger) :
    (endTransfer a s).ReleaseLedger :=
  hs

/-- R76, R77: the handle TOpen returns is closed again or becomes HANDLE, which held none. -/
theorem openTransport_keeps_releaseLedger [Inhabited H] [Inhabited E] (cfg : OpenConfig)
    (hh : s.block.handle = none) (hs : s.ReleaseLedger) : (openTransport cfg s).ReleaseLedger := by
  intro h
  have hbefore := hs h
  rw [hh, timesHeld_none] at hbefore
  rcases openTransport_cases cfg s with ⟨e, ho, ht⟩ | ⟨k, e, ho, -, ht⟩ | ⟨k, ho, -, ht⟩ <;>
    rw [callOpen_answer] at ho <;> rw [ht]
  · simpa [ho, hh] using hbefore
  · simp [ho, hh]
    omega
  · simp [ho]
    omega

theorem issueRead_keeps_releaseLedger {ch : Int} (hs : s.ReleaseLedger) (h : issueRead ch s = .next t) :
    t.ReleaseLedger := by
  rcases issueRead_next h with ⟨-, rfl⟩ | ⟨-, -, rfl⟩ | ⟨-, -, k, -, rfl⟩
  · exact respond_keeps_releaseLedger _ hs
  · exact respond_keeps_releaseLedger _ hs
  · exact issueTransfer_keeps_releaseLedger k _ hs

/-- R79: the handle passed to TClose is the one that leaves HANDLE. -/
theorem closeTransport_keeps_releaseLedger (hs : s.ReleaseLedger) (h : closeTransport s = .next t) :
    t.ReleaseLedger := by
  rcases closeTransport_next h with ⟨-, rfl⟩ | ⟨-, k, hk, rfl⟩
  · exact respond_keeps_releaseLedger _ hs
  · intro h
    have hbefore := hs h
    rw [hk, timesHeld_some] at hbefore
    simp
    omega

theorem completeRead_keeps_releaseLedger [Inhabited E] (hs : s.ReleaseLedger) : (completeRead s).ReleaseLedger := by
  rcases completeRead_cases s with ⟨a, d, -, ht⟩ | ⟨d, -, ht⟩ <;> rw [ht]
  · exact respond_keeps_releaseLedger _ (endTransfer_keeps_releaseLedger (s := { s with draws := d }) a hs)
  · exact hs

end

end

/-- An accepted host request, run on an Idle block. -/
theorem exec_request_keeps_releaseLedger {s t : State} {r : Request} {i : Instr} (hp : s.block.phase = .idle)
    (hw : s.block.Wf) (hs : s.ReleaseLedger) (hd : decodeRequest r = .ok i) (h : exec i s = .next t) :
    t.ReleaseLedger := by
  rcases exec_request_next hp hd h with ⟨cfg, -, hl, rfl⟩ | ⟨ch, -, hread⟩ | ⟨-, hclose⟩
  · exact openTransport_keeps_releaseLedger cfg (handle_eq_none_of_closed hw hl) hs
  · exact issueRead_keeps_releaseLedger hs hread
  · exact closeTransport_keeps_releaseLedger hs hclose

/-- Settles O54: only OPEN and CLOSE call TOpen and TClose or write HANDLE, and a reset finds HANDLE empty; along the
cases of `step_next`. -/
theorem stepKeepsTheReleaseLedger : Obligations.StepKeepsTheReleaseLedger := by
  intro s t hw hs h
  rcases step_next h with ⟨-, hreset⟩ | ⟨-, -, rfl⟩ | ⟨-, hp, r, i, u, ha, hd, hrun⟩ | ⟨-, -, rfl, -⟩
  · obtain ⟨hl, -, rfl⟩ := takeReset_next hreset
    intro h
    simpa [Block.reset, handle_eq_none_of_closed hw hl] using hs h
  · exact hs
  · have hu : u.block = s.block := (acceptRequest_frame ha).1
    have hsu := acceptRequest_keeps_releaseLedger (s := clearResponse s) hs ha
    exact exec_request_keeps_releaseLedger (by rw [hu, hp]) (by rw [hu]; exact hw) hsu hd hrun
  · exact completeRead_keeps_releaseLedger (s := clearResponse s) hs

/-! ### The lifecycle requests of the fixed machine -/

/-- R78. -/
theorem exec_openReq_of_opened (cfg : OpenConfig) {s : State} (hp : s.block.phase = .idle)
    (hl : s.block.life = .opened) : exec (.openReq cfg) s = .refused .openWhileOpen := by
  simp [exec, execOpenReq, whenIdle_idle hp, hl]

/-- R76, R82: whatever happened to the block before it was Closed. -/
theorem exec_openReq_of_closed (cfg : OpenConfig) {s : State} (hp : s.block.phase = .idle)
    (hl : s.block.life = .closed) : exec (.openReq cfg) s = .next (openTransport cfg s) := by
  simp [exec, execOpenReq, whenIdle_idle hp, hl]

theorem exec_close_of_idle {s : State} (hp : s.block.phase = .idle) : exec .close s = closeTransport s :=
  whenIdle_idle hp

theorem exec_read_of_idle (ch : Int) {s : State} (hp : s.block.phase = .idle) : exec (.read ch) s = issueRead ch s :=
  whenIdle_idle hp

/-- Settles O28: the answers are those of the draws, and `acquire` writes the three registers. -/
theorem openAcquiresTheHandle : Obligations.OpenAcquiresTheHandle := by
  intro cfg h d d' s hp hl hopen hconf
  rw [exec_openReq_of_closed cfg hp hl,
    openTransport_of_ok (callOpen_of_answer hopen) (callConfigure_of_answer hconf)]
  rfl

/-- Settles O29: the two failure paths of `openTransport`. -/
theorem openFailureLeavesTheBlockClosed : Obligations.OpenFailureLeavesTheBlockClosed := by
  intro cfg d s hp hl
  rw [exec_openReq_of_closed cfg hp hl]
  constructor
  · intro e hopen
    rw [openTransport_of_open_err (callOpen_of_answer hopen)]
    rfl
  · intro h e d' hopen hconf
    rw [openTransport_of_configure_err (callOpen_of_answer hopen) (callConfigure_of_answer hconf)]
    rfl

/-- Settles O30: LIFE is looked at before any Transport call. -/
theorem openOnOpenBlockRefused : Obligations.OpenOnOpenBlockRefused :=
  fun cfg _ hp hl => exec_openReq_of_opened cfg hp hl

/-- Settles O31: `release` clears the three registers after the one TClose. -/
theorem closeReleasesTheHandle : Obligations.CloseReleasesTheHandle := by
  intro h s hp hl hh
  rw [exec_close_of_idle hp, closeTransport_of_handle hl hh]
  rfl

/-- Settles O32: CLOSE of a Closed block only responds. -/
theorem closeOnClosedBlock : Obligations.CloseOnClosedBlock := by
  intro s hp hl
  rw [exec_close_of_idle hp, closeTransport_of_closed hl]
  rfl

/-! ### Where a step stops -/

/-- R83: an accepted request with a reserved `op` stops the step. -/
theorem step_of_reserved {s t : State} {r : Request} (hr : s.resetAsserted = false) (hp : s.block.phase = .idle)
    (ha : acceptRequest (clearResponse s) = some (r, t)) (h1 : requestOp r.word ≠ 1#4)
    (h2 : requestOp r.word ≠ 2#4) (h3 : requestOp r.word ≠ 3#4) :
    step s = .refused (.reservedRequest (requestOp r.word)) := by
  have hfetch : fetch (clearResponse s) = .refused (.reservedRequest (requestOp r.word)) := by
    simp [fetch, hp, ha, decodeRequest_reserved h1 h2 h3, stopOn]
  simp [step, stepWith, hr, hfetch]

/-- Settles O38: with one agent presenting, its request is the one accepted (`acceptRequest_single`). -/
theorem reservedRequestRefused : Obligations.ReservedRequestRefused := by
  intro s r hr hp h1 h2 h3
  exact ⟨fun t ha => step_of_reserved hr hp ha h1 h2 h3,
    fun rest results hq => step_of_reserved hr hp (acceptRequest_single hq) h1 h2 h3⟩

/-- R78, R83: why an accepted request may be refused, from its `op` and the block's LIFE. -/
inductive RequestRefused (r : Request) (life : Life) : Refusal → Prop where
  | reserved (h1 : requestOp r.word ≠ 1#4) (h2 : requestOp r.word ≠ 2#4) (h3 : requestOp r.word ≠ 3#4) :
    RequestRefused r life (.reservedRequest (requestOp r.word))
  | openWhileOpen (hop : requestOp r.word = 1#4) (hl : life = .opened) : RequestRefused r life .openWhileOpen

/-- An accepted request is run and answers a next state, or it is one of the two that are refused. -/
theorem step_of_accepted {s u : State} {r : Request} (hr : s.resetAsserted = false) (hp : s.block.phase = .idle)
    (hw : s.block.Wf) (ha : acceptRequest (clearResponse s) = some (r, u)) :
    (∃ t, step s = .next t) ∨ ∃ why, step s = .refused why ∧ RequestRefused r s.block.life why := by
  have hu : u.block = s.block := (acceptRequest_frame ha).1
  have hpu : u.block.phase = .idle := by rw [hu, hp]
  have hwu : u.block.Wf := by rw [hu]; exact hw
  have hrun : ∀ i, decodeRequest r = .ok i → step s = exec i u :=
    fun i hd => step_of_fetch hr (fetch_accepted hp ha hd)
  by_cases h1 : requestOp r.word = 1#4
  · rw [hrun _ (decodeRequest_open h1)]
    cases hl : u.block.life with
    | closed => exact .inl ⟨_, exec_openReq_of_closed _ hpu hl⟩
    | opened => exact .inr ⟨_, exec_openReq_of_opened _ hpu hl, .openWhileOpen h1 (by rw [← hu, hl])⟩
  by_cases h2 : requestOp r.word = 2#4
  · rw [hrun _ (decodeRequest_read h2), exec_read_of_idle _ hpu]
    exact .inl (issueRead_answers _ hwu)
  by_cases h3 : requestOp r.word = 3#4
  · rw [hrun _ (decodeRequest_close h3), exec_close_of_idle hpu]
    exact .inl (closeTransport_answers hwu)
  · exact .inr ⟨_, step_of_reserved hr hp ha h1 h2 h3, .reserved h1 h2 h3⟩

/-- R99: the reset input is taken or refused. -/
theorem step_of_reset {s : State} (hr : s.resetAsserted = true) : step s = takeReset s := by
  simp [step, stepWith, hr]

/-- Everything a step can answer from a block that meets `Wf`: a next state, a refused reset, a refused request. -/
theorem step_answers {s : State} (hw : s.block.Wf) :
    (∃ t, step s = .next t) ∨
    (step s = .refused .warmReset ∧ s.resetAsserted = true ∧ (s.block.life = .opened ∨ s.block.phase = .busy)) ∨
    ∃ r t why, acceptRequest (clearResponse s) = some (r, t) ∧ step s = .refused why ∧
      RequestRefused r s.block.life why := by
  cases hr : s.resetAsserted with
  | true =>
    rw [step_of_reset hr]
    by_cases h : s.block.life = .opened ∨ s.block.phase = .busy
    · exact .inr (.inl ⟨takeReset_warm h, rfl, h⟩)
    · exact .inl ⟨_, takeReset_powerOn h⟩
  | false =>
    cases hp : s.block.phase with
    | busy =>
      obtain ⟨f, htx, hf⟩ := exists_commandFrame_of_busy hw hp
      exact .inl ⟨_, step_of_busy hr hp htx hf⟩
    | idle =>
      cases ha : acceptRequest (clearResponse s) with
      | none =>
        have hfetch := fetch_nothing (s := clearResponse s) hp ha
        exact .inl ⟨clearResponse s, by simp [step, stepWith, hr, hfetch]⟩
      | some p =>
        obtain ⟨r, u⟩ := p
        rcases step_of_accepted hr hp hw ha with hnext | ⟨why, href, hwhy⟩
        · exact .inl hnext
        · exact .inr (.inr ⟨r, u, why, rfl, href, hwhy⟩)

/-- Settles O59: none of the answers of `step_answers` is a fault, and its refusals are the spec's three. -/
theorem stepStopsOnlyWhereTheSpecRefuses : Obligations.StepStopsOnlyWhereTheSpecRefuses := by
  intro s hw
  rcases step_answers hw with ⟨t, hs⟩ | ⟨hs, hreset⟩ | ⟨r, t, why, ha, hs, hwhy⟩ <;> rw [hs]
  · exact ⟨fun _ => nofun, fun _ => nofun⟩
  · refine ⟨fun _ => nofun, fun why heq => ?_⟩
    cases heq
    exact .inl ⟨rfl, hreset⟩
  · refine ⟨fun _ => nofun, fun why' heq => ?_⟩
    cases heq
    refine .inr ⟨r, t, ha, ?_⟩
    cases hwhy with
    | reserved h1 h2 h3 => exact .inl ⟨rfl, h1, h2, h3⟩
    | openWhileOpen hop hl => exact .inr ⟨rfl, hop, hl⟩

end Sys2Proof.Machine

namespace Sys2Proof.Machine

/-! ## Errors: the status codes, and what a delivered error leaves of the block (R91)

An error delivered by OPEN or CLOSE, or by READ's issue or completion: one lemma for each. The response port is cleared
before any of them runs (R24), so an error on it afterwards is the operation's own. -/

section

variable {H E : Type} {n : Nat} {s t : State.Of H E n}

/-- R77: both failure paths of OPEN only close what was opened. -/
theorem openTransport_block_of_err [Inhabited H] [Inhabited E] {cfg : OpenConfig} {e : Error.Of E}
    (he : (openTransport cfg s).response = some (.err e)) : (openTransport cfg s).block = s.block := by
  rcases openTransport_cases cfg s with ⟨_, -, ht⟩ | ⟨h, _, -, -, ht⟩ | ⟨h, -, -, ht⟩ <;> rw [ht] at he ⊢
  · rfl
  · rfl
  · cases he

/-- R66, R67: a READ that fails its checks writes nothing; one that is issued delivers no result. -/
theorem issueRead_block_of_err {ch : Int} {e : Error.Of E} (hs : s.response = none) (h : issueRead ch s = .next t)
    (he : t.response = some (.err e)) : t.block = s.block := by
  rcases issueRead_next h with ⟨-, rfl⟩ | ⟨-, -, rfl⟩ | ⟨-, -, k, -, rfl⟩
  · rfl
  · rfl
  · simp [hs] at he

/-- R79, R80: CLOSE cannot fail. -/
theorem closeTransport_response (h : closeTransport s = .next t) : t.response = some (.ok .none) := by
  rcases closeTransport_next h with ⟨-, rfl⟩ | ⟨-, k, -, rfl⟩ <;> rfl

/-- R70: an error that completes a READ ends the exchange and writes nothing else. -/
theorem completeRead_block_of_err [Inhabited E] {e : Error.Of E} (hs : s.response = none)
    (he : (completeRead s).response = some (.err e)) :
    (completeRead s).block = { s.block with phase := .idle, tx := none } := by
  rcases completeRead_cases s with ⟨a, d, -, ht⟩ | ⟨d, -, ht⟩ <;> rw [ht] at he ⊢
  · rfl
  · simp [hs] at he

end

/-- An accepted request that is answered with an error in the same step leaves the block as it was. -/
theorem exec_request_block_of_err {s t : State} {r : Request} {i : Instr} {e : Error} (hp : s.block.phase = .idle)
    (hs : s.response = none) (hd : decodeRequest r = .ok i) (h : exec i s = .next t)
    (he : t.response = some (.err e)) : t.block = s.block := by
  rcases exec_request_next hp hd h with ⟨cfg, -, -, rfl⟩ | ⟨ch, -, hread⟩ | ⟨-, hclose⟩
  · exact openTransport_block_of_err he
  · exact issueRead_block_of_err hs hread he
  · rw [closeTransport_response hclose] at he
    cases he

/-- Settles O47: a reset and a step that waits deliver nothing; an accepted request starts from Idle, a completion from
Busy. -/
theorem errorsLeaveTheBlockUnchanged : Obligations.ErrorsLeaveTheBlockUnchanged := by
  intro s t e h he
  rcases step_next h with ⟨-, hreset⟩ | ⟨-, -, rfl⟩ | ⟨-, hp, r, i, u, ha, hd, hrun⟩ | ⟨-, hp, rfl, -⟩
  · obtain ⟨-, -, rfl⟩ := takeReset_next hreset
    cases he
  · cases he
  · obtain ⟨hblock, hresponse, -, -⟩ := acceptRequest_frame ha
    rw [clearResponse_block] at hblock
    have hkept : t.block = u.block := exec_request_block_of_err (by rw [hblock, hp]) hresponse hd hrun he
    exact ⟨fun _ => hkept.trans hblock, fun hbusy => by simp [hp] at hbusy⟩
  · exact ⟨fun hidle => by simp [hp] at hidle, fun _ => completeRead_block_of_err (s := clearResponse s) rfl he⟩

/-- Settles O19: the four rows of R84's table, as `statusCode` and `errorCode` have them. -/
theorem statusCodes : Obligations.StatusCodes :=
  fun _ => ⟨fun _ => rfl, rfl, rfl, fun _ => rfl⟩

end Sys2Proof.Machine

namespace Sys2Proof.Machine

/-! ## The idle step and the reset input (R99, R100) -/

/-- A Closed and Idle block is outside the condition under which R99 refuses a reset. -/
theorem not_opened_or_busy {H : Type} {b : Block.Of H} (hl : b.life = .closed) (hp : b.phase = .idle) :
    ¬ (b.life = .opened ∨ b.phase = .busy) := by
  simp [hl, hp]

/-- Settles O39: nobody presents, so the port accepts none, and the step is `clearResponse`. -/
theorem idleBlockWaitsForARequest : Obligations.IdleBlockWaitsForARequest :=
  fun _ hr hp hq => step_of_nothing_presented hr hp hq

/-- Settles O41: the reset input comes before any fetch, and is refused while Open or Busy. -/
theorem warmResetRefused : Obligations.WarmResetRefused := by
  refine ⟨rfl, rfl, fun s hr hwarm => ?_⟩
  rw [step_of_reset hr]
  exact takeReset_warm hwarm

/-- Settles O42: Closed and Idle is the one case in which the reset input is taken. -/
theorem resetWhileClosedAndIdle : Obligations.ResetWhileClosedAndIdle := by
  intro s hr hl hp
  rw [step_of_reset hr]
  exact takeReset_powerOn (not_opened_or_busy hl hp)

end Sys2Proof.Machine
